-- ==== Sys2Proof/Word.lean ====
section
/-! DEFINITION. Trits and trytes: the machine's numeral types and their plainest arithmetic
(00_scope.md R10, R13, R14; 40_trit_tryte_alu.md R110, R111). -/

namespace Sys2Proof

/-- A trit, -1, 0 or +1 with the glyphs `-`, `o`, `+` (R110). -/
inductive Trit where
  | neg
  | zero
  | pos
deriving DecidableEq, Repr, Inhabited

/-- The value of a trit (R110). -/
def Trit.toInt : Trit → Int
  | .neg => -1
  | .zero => 0
  | .pos => 1

/-- A tryte: nine trits, most significant first (R13, R111). The field `d<n>` is the trit at digit
index n, of weight 3^n. -/
structure Tryte where
  d8 : Trit
  d7 : Trit
  d6 : Trit
  d5 : Trit
  d4 : Trit
  d3 : Trit
  d2 : Trit
  d1 : Trit
  d0 : Trit
deriving DecidableEq, Repr, Inhabited

/-- `ZERO`, the tryte `ooooooooo` (R14). -/
def Tryte.zero : Tryte := ⟨.zero, .zero, .zero, .zero, .zero, .zero, .zero, .zero, .zero⟩

/-- `digit(w, d)` (R13); above digit index 8 a zero trit, as extension pads with zero trits (R15). -/
def Tryte.digit (w : Tryte) : Nat → Trit
  | 0 => w.d0
  | 1 => w.d1
  | 2 => w.d2
  | 3 => w.d3
  | 4 => w.d4
  | 5 => w.d5
  | 6 => w.d6
  | 7 => w.d7
  | 8 => w.d8
  | _ => .zero

/-- The tryte whose digit at each index d in 0..8 is `f d`. -/
def Tryte.ofDigits (f : Nat → Trit) : Tryte :=
  ⟨f 8, f 7, f 6, f 5, f 4, f 3, f 2, f 1, f 0⟩

/-- One trit function applied at every digit. -/
def Tryte.map (f : Trit → Trit) (a : Tryte) : Tryte :=
  ⟨f a.d8, f a.d7, f a.d6, f a.d5, f a.d4, f a.d3, f a.d2, f a.d1, f a.d0⟩

/-- One two-input trit function applied at every digit. -/
def Tryte.map2 (f : Trit → Trit → Trit) (a b : Tryte) : Tryte :=
  ⟨f a.d8 b.d8, f a.d7 b.d7, f a.d6 b.d6, f a.d5 b.d5, f a.d4 b.d4, f a.d3 b.d3, f a.d2 b.d2,
    f a.d1 b.d1, f a.d0 b.d0⟩

/-- `int(w)`, the sum of `digit(w, d) * 3^d` (R14, R115). -/
def Tryte.toInt (w : Tryte) : Int :=
  6561 * w.d8.toInt + 2187 * w.d7.toInt + 729 * w.d6.toInt + 243 * w.d5.toInt
    + 81 * w.d4.toInt + 27 * w.d3.toInt + 9 * w.d2.toInt + 3 * w.d1.toInt + w.d0.toInt

/-- `wrap(n)`: the integer in -9841..+9841 congruent to n modulo 19683 (R14). -/
def wrap (n : Int) : Int := (n + 9841) % 19683 - 9841

/-- The trit of value `k % 3 - 1`. -/
def Trit.ofResidue (k : Nat) : Trit :=
  if k % 3 = 0 then .neg else if k % 3 = 1 then .zero else .pos

/-- `tryte(wrap(n))` (R14), which is `tryte(n)` for n in -9841..+9841. Adding 9841 adds one to every
balanced digit, so digit d is the ordinary base-3 digit of `wrap(n) + 9841`, less one. -/
def Tryte.ofInt (n : Int) : Tryte :=
  Tryte.ofDigits fun d => Trit.ofResidue (((n + 9841) % 19683).toNat / 3 ^ d)

end Sys2Proof
end

