-- ==== Sys2Proof/Machine/Alu.lean ====
section
/-! DEFINITION. The arithmetic-logic engine's functions on trytes (40_trit_tryte_alu.md), each a pure
function giving the new value of its first operand. The carries they leave are in Flags.lean. -/

namespace Sys2Proof.Machine

/-- The digit table of `add` (R119): result trit and carry to the next digit. A sum of three trits is
in -3..+3, so the last case is -3 alone; there is no other (R138). -/
def digitTable (s : Int) : Trit × Trit :=
  if s = 3 then (.zero, .pos)
  else if s = 2 then (.neg, .pos)
  else if s = 1 then (.pos, .zero)
  else if s = 0 then (.zero, .zero)
  else if s = -1 then (.neg, .zero)
  else if s = -2 then (.pos, .neg)
  else (.zero, .neg)

/-- One digit of an addition: `digitTable (a + b + c)`. -/
def addDigit (a b c : Trit) : Trit × Trit := digitTable (a.toInt + b.toInt + c.toInt)

/-- `add(a, b, with_carry)` on an ALU whose carry is `C` (R119): the sum and the new carry. -/
def aluAdd (a b : Tryte) (withCarry : Bool) (C : Trit) : Tryte × Trit :=
  let s0 := addDigit a.d0 b.d0 (if withCarry then C else .zero)
  let s1 := addDigit a.d1 b.d1 s0.2
  let s2 := addDigit a.d2 b.d2 s1.2
  let s3 := addDigit a.d3 b.d3 s2.2
  let s4 := addDigit a.d4 b.d4 s3.2
  let s5 := addDigit a.d5 b.d5 s4.2
  let s6 := addDigit a.d6 b.d6 s5.2
  let s7 := addDigit a.d7 b.d7 s6.2
  let s8 := addDigit a.d8 b.d8 s7.2
  (⟨s8.1, s7.1, s6.1, s5.1, s4.1, s3.1, s2.1, s1.1, s0.1⟩, s8.2)

/-- `multiply(a, b)` (R121): the exact product, its nine least significant balanced digits kept. -/
def aluMultiply (a b : Tryte) : Tryte := Tryte.ofInt (a.toInt * b.toInt)

/-- `divide(a, b)` for a non-zero divisor (R122): the quotient rounded toward zero. -/
def aluDivide (a b : Tryte) : Tryte := Tryte.ofInt (a.toInt.tdiv b.toInt)

/-- `modulo(a, b)` for a non-zero divisor (R123): the remainder of the truncating division. -/
def aluModulo (a b : Tryte) : Tryte := Tryte.ofInt (a.toInt - b.toInt * a.toInt.tdiv b.toInt)

/-- The sign of a - b as a trit. -/
def compareTrit (a b : Trit) : Trit :=
  if b.toInt < a.toInt then .pos else if a.toInt < b.toInt then .neg else .zero

/-- The first non-zero trit of a list, zero if there is none. -/
def firstNonZero : List Trit → Trit
  | [] => .zero
  | t :: ts => if t = .zero then firstNonZero ts else t

/-- `compare(a, b)` (R124): from the most significant digit down, the first that differs decides. -/
def aluCompare (a b : Tryte) : Trit :=
  firstNonZero [compareTrit a.d8 b.d8, compareTrit a.d7 b.d7, compareTrit a.d6 b.d6,
    compareTrit a.d5 b.d5, compareTrit a.d4 b.d4, compareTrit a.d3 b.d3, compareTrit a.d2 b.d2,
    compareTrit a.d1 b.d1, compareTrit a.d0 b.d0]

/-- -1 and +1 swapped (R125). -/
def negTrit : Trit → Trit
  | .neg => .pos
  | .zero => .zero
  | .pos => .neg

/-- The smaller trit in the order -1 < 0 < +1 (R126). -/
def minTrit (a b : Trit) : Trit := if a.toInt ≤ b.toInt then a else b

/-- The larger trit in the order -1 < 0 < +1 (R127). -/
def maxTrit (a b : Trit) : Trit := if a.toInt ≤ b.toInt then b else a

/-- The trit function of `xor` (R128). -/
def xorTrit (a b : Trit) : Trit :=
  if a = .zero ∨ b = .zero then .zero else if a = b then .neg else .pos

/-- The trit function of `consensus` (R129). -/
def consensusTrit (a b : Trit) : Trit := if a = b then a else .zero

/-- The trit function of `accept_anything` (R130). -/
def acceptTrit (a b : Trit) : Trit :=
  if a = .zero then b else if a = negTrit b then .zero else a

/-- `neg(a, b)` (R125): the tritwise negation of b. -/
def aluNeg (b : Tryte) : Tryte := b.map negTrit

/-- `min(a, b)` (R126). -/
def aluMin (a b : Tryte) : Tryte := a.map2 minTrit b

/-- `max(a, b)` (R127). -/
def aluMax (a b : Tryte) : Tryte := a.map2 maxTrit b

/-- `xor(a, b)` (R128). -/
def aluXor (a b : Tryte) : Tryte := a.map2 xorTrit b

/-- `consensus(a, b)` (R129). -/
def aluConsensus (a b : Tryte) : Tryte := a.map2 consensusTrit b

/-- `accept_anything(a, b)` (R130). -/
def aluAccept (a b : Tryte) : Tryte := a.map2 acceptTrit b

/-- `copy(a, b)` (R132). -/
def aluCopy (b : Tryte) : Tryte := b

/-- `shift_right(a, n)` in the closed form of R133: for n ≥ 0 digit d takes the old digit d + n, for
n < 0 the old digit d + n where that is not negative; places with no old digit take zero. -/
def aluShiftRight (a : Tryte) (n : Int) : Tryte :=
  if 0 ≤ n then Tryte.ofDigits fun d => a.digit (d + n.toNat)
  else Tryte.ofDigits fun d => if (-n).toNat ≤ d then a.digit (d - (-n).toNat) else .zero

/-- One turn of R133's loop for n > 0: the value and the trit popped at the least significant end. -/
def popLow (a : Tryte) : Tryte × Trit :=
  (⟨.zero, a.d8, a.d7, a.d6, a.d5, a.d4, a.d3, a.d2, a.d1⟩, a.d0)

/-- One turn of R133's loop for n < 0: the value and the trit popped at the most significant end. -/
def popHigh (a : Tryte) : Tryte × Trit :=
  (⟨a.d7, a.d6, a.d5, a.d4, a.d3, a.d2, a.d1, a.d0, .zero⟩, a.d8)

/-- R133's loop as the rule writes it: k pops, each leaving its trit in the carry. The closed form
above is the model's meaning of the shift; this loop is what statements compare it with. -/
def shiftLoop (pop : Tryte → Tryte × Trit) : Nat → Tryte × Trit → Tryte × Trit
  | 0, s => s
  | k + 1, s => shiftLoop pop k (pop s.1)

/-- One shift up of a trit's value (R137): `+1→-1, 0→+1, -1→0`. -/
def upTrit : Trit → Trit
  | .neg => .zero
  | .zero => .pos
  | .pos => .neg

/-- One shift down of a trit's value (R137), the inverse. -/
def downTrit : Trit → Trit
  | .neg => .pos
  | .zero => .neg
  | .pos => .zero

/-- `shift_up(a, n)` (R137): shift up applied `n mod 3` times to every trit. -/
def aluShiftUp (a : Tryte) (n : Int) : Tryte :=
  if n % 3 = 0 then a
  else if n % 3 = 1 then a.map upTrit
  else a.map fun t => upTrit (upTrit t)

/-- A transform of every trit applied k times, as R137 words the shift up. -/
def valueLoop (f : Trit → Trit) : Nat → Tryte → Tryte
  | 0, a => a
  | k + 1, a => valueLoop f k (a.map f)

end Sys2Proof.Machine
end

