-- ==== Sys2Proof/Machine/Flags.lean ====
section
/-! DEFINITION. The machine's one flag, the carry trit C: what each instruction that writes it leaves
there (10_state.md R26, 40_trit_tryte_alu.md R139). No other instruction touches C (R139). -/

namespace Sys2Proof.Machine

/-- The carry of an exact sum (40_trit_tryte_alu.md R120; 42_arithmetic.md R170, R171). -/
def carryOfSum (S : Int) : Trit :=
  if S > 9841 then .pos else if S < -9841 then .neg else .zero

/-- C after ADD: the carry out of digit 8 of a fresh add (R119, R170). -/
def carryAdd (a b : Tryte) (C : Trit) : Trit := (aluAdd a b false C).2

/-- C after ADC: the carry out of digit 8 of a chained add (R119, R171). -/
def carryAdc (a b : Tryte) (C : Trit) : Trit := (aluAdd a b true C).2

/-- C after SHR by n, in the closed form of R133: the last trit shifted out, or the old C for a zero
count (R139, 43_logic_shift.md R195). -/
def carryShift (a : Tryte) (n : Int) (C : Trit) : Trit :=
  if n = 0 then C
  else if 0 < n then a.digit (n.toNat - 1)
  else if (-n).toNat ≤ 9 then a.digit (9 - (-n).toNat)
  else .zero

end Sys2Proof.Machine
end

