-- ==== Sys2Proof/Syntax.lean ====
section
/-! DEFINITION. The instruction set as syntax: registers, addressing modes, operands, the 26
instructions of 30_encoding.md R89, and the decoded record of R84. -/

namespace Sys2Proof

/-- The nine registers, in index order 0..8 (10_state.md R20, R21). -/
inductive Reg where
  | r0 | r1 | r2 | r3 | r4 | r5 | r6
  /-- Index 7, the return-address register that JAL writes (R22). -/
  | ra
  /-- Index 8, the stack pointer of the assembler's PSH and POP; no instruction implies it (R22). -/
  | sp
deriving DecidableEq, Repr, Inhabited

/-- The register index (10_state.md R21). -/
def Reg.index : Reg → Nat
  | .r0 => 0 | .r1 => 1 | .r2 => 2 | .r3 => 3 | .r4 => 4 | .r5 => 5 | .r6 => 6 | .ra => 7 | .sp => 8

/-- The three addressing modes (30_encoding.md R82). -/
inductive Mode where
  /-- Mode trit -1, REGISTER_REGISTER. -/
  | rr
  /-- Mode trit 0, SHORT_IMMEDIATE. -/
  | si
  /-- Mode trit +1, WORD_IMMEDIATE. -/
  | wi
deriving DecidableEq, Repr, Inhabited

/-- The value of the mode trit (30_encoding.md R82). -/
def Mode.toInt : Mode → Int
  | .rr => -1
  | .si => 0
  | .wi => 1

/-- The mode, the y field and z of one instruction. The y field is a register in RR and WI mode and a
literal in SI mode (41_cpu_step.md R155); z is there exactly in WI mode (30_encoding.md R83). The y
register of a WI form is kept even where the instruction ignores it (R92), so that no trit of an
encoding is lost. -/
inductive Operand where
  | rr (y : Reg)
  | si (literal : Int)
  | wi (y : Reg) (z : Tryte)
deriving DecidableEq, Repr, Inhabited

/-- The addressing mode of an operand. -/
def Operand.mode : Operand → Mode
  | .rr _ => .rr
  | .si _ => .si
  | .wi _ _ => .wi

/-- The 26 instructions (30_encoding.md R89), one constructor for each row of the opcode table. Every
word has an x selector; JMP and JAL ignore theirs (R92). -/
inductive Instr where
  | add (x : Reg) (op : Operand)
  | adc (x : Reg) (op : Operand)
  | mul (x : Reg) (op : Operand)
  | div (x : Reg) (op : Operand)
  | mod (x : Reg) (op : Operand)
  | neg (x : Reg) (op : Operand)
  | min (x : Reg) (op : Operand)
  | max (x : Reg) (op : Operand)
  | xor (x : Reg) (op : Operand)
  | con (x : Reg) (op : Operand)
  | any (x : Reg) (op : Operand)
  | shr (x : Reg) (op : Operand)
  | shu (x : Reg) (op : Operand)
  | mov (x : Reg) (op : Operand)
  | lda (x : Reg) (op : Operand)
  | sta (x : Reg) (op : Operand)
  | ldo (x : Reg) (op : Operand)
  | sto (x : Reg) (op : Operand)
  | jeq (x : Reg) (op : Operand)
  | jne (x : Reg) (op : Operand)
  | jgt (x : Reg) (op : Operand)
  | jlt (x : Reg) (op : Operand)
  | jge (x : Reg) (op : Operand)
  | jle (x : Reg) (op : Operand)
  | jmp (x : Reg) (op : Operand)
  | jal (x : Reg) (op : Operand)
deriving DecidableEq, Repr, Inhabited

/-- The 26 mnemonics, in the order of 30_encoding.md R89: the domain of the opcode map. -/
inductive Mnemonic where
  | add | adc | mul | div | mod | neg | min | max | xor | con | any | shr | shu | mov | lda | sta
  | ldo | sto | jeq | jne | jgt | jlt | jge | jle | jmp | jal
deriving DecidableEq, Repr, Inhabited

/-- Every mnemonic once, in table order. -/
def Mnemonic.all : List Mnemonic :=
  [.add, .adc, .mul, .div, .mod, .neg, .min, .max, .xor, .con, .any, .shr, .shu, .mov, .lda, .sta,
    .ldo, .sto, .jeq, .jne, .jgt, .jlt, .jge, .jle, .jmp, .jal]

/-- The instruction of a mnemonic. -/
def Mnemonic.instr : Mnemonic → Reg → Operand → Instr
  | .add => .add | .adc => .adc | .mul => .mul | .div => .div | .mod => .mod | .neg => .neg
  | .min => .min | .max => .max | .xor => .xor | .con => .con | .any => .any | .shr => .shr
  | .shu => .shu | .mov => .mov | .lda => .lda | .sta => .sta | .ldo => .ldo | .sto => .sto
  | .jeq => .jeq | .jne => .jne | .jgt => .jgt | .jlt => .jlt | .jge => .jge | .jle => .jle
  | .jmp => .jmp | .jal => .jal

/-- The three parts of an instruction: its mnemonic, its x register, its operand. -/
def Instr.parts : Instr → Mnemonic × Reg × Operand
  | .add x op => (.add, x, op) | .adc x op => (.adc, x, op) | .mul x op => (.mul, x, op)
  | .div x op => (.div, x, op) | .mod x op => (.mod, x, op) | .neg x op => (.neg, x, op)
  | .min x op => (.min, x, op) | .max x op => (.max, x, op) | .xor x op => (.xor, x, op)
  | .con x op => (.con, x, op) | .any x op => (.any, x, op) | .shr x op => (.shr, x, op)
  | .shu x op => (.shu, x, op) | .mov x op => (.mov, x, op) | .lda x op => (.lda, x, op)
  | .sta x op => (.sta, x, op) | .ldo x op => (.ldo, x, op) | .sto x op => (.sto, x, op)
  | .jeq x op => (.jeq, x, op) | .jne x op => (.jne, x, op) | .jgt x op => (.jgt, x, op)
  | .jlt x op => (.jlt, x, op) | .jge x op => (.jge, x, op) | .jle x op => (.jle, x, op)
  | .jmp x op => (.jmp, x, op) | .jal x op => (.jal, x, op)

/-- The mnemonic of an instruction. -/
def Instr.mnemonic (i : Instr) : Mnemonic := i.parts.1
/-- The register of the x field. -/
def Instr.x (i : Instr) : Reg := i.parts.2.1
/-- The mode, y field and z. -/
def Instr.operand (i : Instr) : Operand := i.parts.2.2

/-- The length in trytes: two in WI mode, one otherwise (30_encoding.md R80, R83, R93). -/
def Instr.length (i : Instr) : Nat :=
  match i.operand with
  | .wi _ _ => 2
  | _ => 1

/-- The decoded record of 30_encoding.md R84, its fields still numbers. -/
structure Record where
  opcode : Int
  mode : Mode
  xsel : Int
  ysel : Int
  z : Option Tryte
deriving DecidableEq, Repr

end Sys2Proof
end

