-- ==== Sys2Proof/Config.lean ====
section
/-! DEFINITION. What an implementation fixes. The parameters of 00_scope.md R11 stand at the defaults
the spec takes (log entry 10); those of R12, of which the spec fixes nothing, are opaque constants
(log entries 2, 7, 8, 20, 23): nothing can be proved of their values. -/

namespace Sys2Proof

/-- `OPC`, the opcode map (30_encoding.md R89, decision D1). -/
def Config.opc : Mnemonic → Int
  | .add => 1 | .adc => 2 | .mul => 3 | .div => 4 | .mod => 5 | .neg => 6 | .min => 7 | .max => 8
  | .xor => 9 | .con => 10 | .any => 11 | .shr => 12 | .shu => 13 | .mov => 14 | .lda => 15
  | .sta => 16 | .ldo => 17 | .sto => 18 | .jeq => 19 | .jne => 20 | .jgt => 21 | .jlt => 22
  | .jge => 23 | .jle => 24 | .jmp => 25 | .jal => 26

/-- `NREGS` (00_scope.md R11, decision D2). -/
def Config.nregs : Nat := 9

/-- `BIAS`: register index = selector + BIAS (00_scope.md R11, decision D2). -/
def Config.bias : Int := 4

/-- `ENTRY`: the pc after load and reset, and the assembler's origin (00_scope.md R11, decision D4). -/
def Config.entry : Tryte := Tryte.zero

/-- `TILE_BASE` (00_scope.md R12, decision D16): OPEN. -/
opaque Config.tileBase : Int

/-- `TILE_SIZE` (00_scope.md R12, decision D16): OPEN; the region is empty where it is not positive. -/
opaque Config.tileSize : Int

/-- `tile_fields`: the sub-fields u and v of a stored tryte (00_scope.md R12, 44_move_load_store.md
R215, decision D16): OPEN. -/
opaque Config.tileFields : Tryte → Tryte × Tryte

/-- The mouse X cell (20_memory.md R67, decision D17): OPEN. -/
opaque Config.mouseX : Tryte

/-- The mouse Y cell (20_memory.md R67, decision D17): OPEN. -/
opaque Config.mouseY : Tryte

/-- The mouse-button cell (20_memory.md R67, decision D17): OPEN. -/
opaque Config.mouseButtons : Tryte

/-- The host-writable cells beyond the three mouse cells (20_memory.md R59, decision D17): OPEN. -/
opaque Config.otherHostCell : Tryte → Bool

/-- `HOST_CELLS`: at least the three mouse cells (20_memory.md R59, decision D17). -/
def Config.isHostCell (a : Tryte) : Bool :=
  a = Config.mouseX || a = Config.mouseY || a = Config.mouseButtons || Config.otherHostCell a

/-- The name, without the sigil, of the hardware symbol for the mouse X cell (46_assembler.md R271,
decision D17): OPEN, as are the four names below. -/
opaque Config.mouseXName : List Char

/-- The name of the symbol for the mouse Y cell. -/
opaque Config.mouseYName : List Char

/-- The name of the symbol for the mouse-button cell. -/
opaque Config.mouseButtonsName : List Char

/-- The name of the symbol for the tile map's base address. -/
opaque Config.tileBaseName : List Char

/-- The name of the symbol for the tile map's size. -/
opaque Config.tileSizeName : List Char

/-- Hardware symbols beyond those five, name without sigil and value: OPEN, as R271 lists the five as
examples (log entry 23). -/
opaque Config.otherHwSymbols : List (List Char × Int)

/-- `HW_SYMBOLS`: the hardware symbols, by name with the `$` sigil (46_assembler.md R255, R271). The values
are the cells and the region that the CPU knows (20_memory.md R67): the addresses of the three mouse
cells, the tile map's base, and its size in trytes. -/
def Config.hwSymbols : List (List Char × Int) :=
  (Config.otherHwSymbols ++
    [(Config.mouseXName, Config.mouseX.toInt), (Config.mouseYName, Config.mouseY.toInt),
      (Config.mouseButtonsName, Config.mouseButtons.toInt), (Config.tileBaseName, Config.tileBase),
      (Config.tileSizeName, Config.tileSize)]).map fun p => ('$' :: p.1, p.2)

/-- `STEPS_PER_TICK` (41_cpu_step.md R163, decision D31): OPEN. -/
opaque Config.stepsPerTick : Nat

/-- Free trits, one for each draw: the carry after load and reset is unspecified (10_state.md R34, R35,
decision D5; log entry 2). -/
opaque Config.freeTrit : Nat → Trit

end Sys2Proof
end

