-- ==== Sys2Proof/WellFormed.lean ====
section
/-! DEFINITION. When a decoded record and an instruction are valid (30_encoding.md R85, R88). -/

namespace Sys2Proof

/-- A field of k trits whose largest value is `bound` is in range (30_encoding.md R81). -/
def inField (bound n : Int) : Bool := decide (-bound ≤ n ∧ n ≤ bound)

/-- A valid record (30_encoding.md R85): the fields in range, z there exactly when the mode is WI. The
mode is one of three by its type (R82: there is no illegal mode). -/
abbrev Record.valid (r : Record) : Prop :=
  inField 40 r.opcode = true ∧ inField 4 r.xsel = true ∧ inField 4 r.ysel = true ∧
    (r.z.isSome = true ↔ r.mode = .wi)

/-- An operand is well formed when its literal fits the 2-trit y field (30_encoding.md R88). -/
def Operand.wf : Operand → Bool
  | .rr _ => true
  | .si n => inField 4 n
  | .wi _ _ => true

/-- An instruction is well formed when its operand is; its registers and mode are by their types. -/
def Instr.wf (i : Instr) : Bool := i.operand.wf

end Sys2Proof
end

