-- ==== Sys2Proof/Decode.lean ====
section
/-! DEFINITION. The instruction codec (30_encoding.md R80 to R93): field slices, the decoded record, the
instruction it names, and the encoder written from the same layout. -/

namespace Sys2Proof

/-- Why a tryte stream is no instruction. -/
inductive DecodeError where
  /-- The opcode is not in the opcode map (30_encoding.md R90). -/
  | reservedOpcode (opcode : Int)
  /-- A selector outside -4..+4: a record that is not the decoding of any word (R85, R87). -/
  | selectorOutOfRange (selector : Int)
  /-- A short literal outside -4..+4: a record that is not the decoding of any word (R85, R88). -/
  | literalOutOfRange (literal : Int)
  /-- The mode is WI and there is no trailing tryte (R83). -/
  | missingTrailing
  /-- The mode is not WI and the record holds a trailing tryte (R83). -/
  | unexpectedTrailing
  /-- There is no instruction word. -/
  | emptyStream
deriving DecidableEq, Repr

/-- `opcode = trits[8:5]` (R81). -/
def opcodeField (w : Tryte) : Int :=
  27 * w.d8.toInt + 9 * w.d7.toInt + 3 * w.d6.toInt + w.d5.toInt

/-- `mode = trits[4:4]` (R81, R82). -/
def modeField (w : Tryte) : Mode :=
  match w.d4 with
  | .neg => .rr
  | .zero => .si
  | .pos => .wi

/-- `xsel = trits[3:2]` (R81). -/
def xField (w : Tryte) : Int := 3 * w.d3.toInt + w.d2.toInt

/-- `ysel = trits[1:0]` (R81). -/
def yField (w : Tryte) : Int := 3 * w.d1.toInt + w.d0.toInt

/-- Decode of a word and of the trailing tryte fetched with it (R84): total, no opcode is looked up. -/
def decodeRecord (w : Tryte) (z : Option Tryte) : Record :=
  { opcode := opcodeField w, mode := modeField w, xsel := xField w, ysel := yField w, z := z }

/-- The register of an index (10_state.md R21). -/
def regOfIndex (n : Int) : Option Reg :=
  [Reg.r0, .r1, .r2, .r3, .r4, .r5, .r6, .ra, .sp].find? fun r => (r.index : Int) == n

/-- The register a selector names: index = selector + BIAS (R87). -/
def regOfSelector (sel : Int) : Except DecodeError Reg :=
  match regOfIndex (sel + Config.bias) with
  | some r => .ok r
  | none => .error (.selectorOutOfRange sel)

/-- The selector of a register (10_state.md R21). -/
def selectorOfReg (r : Reg) : Int := r.index - Config.bias

/-- The mnemonic an opcode value is assigned to, if any (30_encoding.md R89, R90; 41_cpu_step.md
R157). -/
def mnemonicOfOpcode (n : Int) : Option Mnemonic :=
  Mnemonic.all.find? fun m => Config.opc m == n

/-- The operand of a record (41_cpu_step.md R155). -/
def operandOfRecord (r : Record) : Except DecodeError Operand :=
  match r.mode, r.z with
  | .rr, none => (regOfSelector r.ysel).map .rr
  | .si, none => if inField 4 r.ysel then .ok (.si r.ysel) else .error (.literalOutOfRange r.ysel)
  | .wi, some z => (regOfSelector r.ysel).map (.wi · z)
  | .wi, none => .error .missingTrailing
  | _, some _ => .error .unexpectedTrailing

/-- The instruction a record stands for (41_cpu_step.md R154, R155, R157). -/
def instrOfRecord (r : Record) : Except DecodeError Instr :=
  match mnemonicOfOpcode r.opcode with
  | none => .error (.reservedOpcode r.opcode)
  | some m =>
    match regOfSelector r.xsel, operandOfRecord r with
    | .ok x, .ok op => .ok (m.instr x op)
    | .error e, _ => .error e
    | _, .error e => .error e

/-- The instruction of a fetched word and its trailing tryte. -/
def decodeWord (w : Tryte) (z : Option Tryte) : Except DecodeError Instr :=
  instrOfRecord (decodeRecord w z)

/-- Decode at the head of an instruction stream: in WI mode one more tryte is consumed, whatever the
opcode (30_encoding.md R83, R84). -/
def decodeStream : List Tryte → Except DecodeError (Instr × List Tryte)
  | [] => .error .emptyStream
  | w :: rest =>
    match modeField w, rest with
    | .wi, [] => .error .missingTrailing
    | .wi, z :: rest' => (decodeWord w (some z)).map (·, rest')
    | _, rest => (decodeWord w none).map (·, rest)

/-- Encode of a record (30_encoding.md R85): `word = tryte(243*opcode + 81*mode + 9*xsel + ysel)`,
followed by z when present. -/
def encodeRecord (r : Record) : List Tryte :=
  Tryte.ofInt (243 * r.opcode + 81 * r.mode.toInt + 9 * r.xsel + r.ysel) :: r.z.toList

/-- The y field of an operand (41_cpu_step.md R155). -/
def yselOfOperand : Operand → Int
  | .rr y => selectorOfReg y
  | .si n => n
  | .wi y _ => selectorOfReg y

/-- The trailing tryte of an operand (30_encoding.md R83). -/
def zOfOperand : Operand → Option Tryte
  | .wi _ z => some z
  | _ => none

/-- The record of an instruction, under the opcode map `OPC` (30_encoding.md R89). -/
def recordOfInstr (i : Instr) : Record :=
  { opcode := Config.opc i.mnemonic
    mode := i.operand.mode
    xsel := selectorOfReg i.x
    ysel := yselOfOperand i.operand
    z := zOfOperand i.operand }

/-- The trytes of an instruction: its word, then z in WI mode (30_encoding.md R80, R85). -/
def encode (i : Instr) : List Tryte := encodeRecord (recordOfInstr i)

/-- The instruction word alone. -/
def encodeWord (i : Instr) : Tryte :=
  let r := recordOfInstr i
  Tryte.ofInt (243 * r.opcode + 81 * r.mode.toInt + 9 * r.xsel + r.ysel)

/-- The two trytes of a number read as the opcode table numbers an instruction: the word is the
number's nine least significant balanced digits, as the table's `match` is the word's integer value
(30_encoding.md R95), and the trailing tryte the nine digits above them (log entry 12). -/
def tableTrytes (w : Nat) : Tryte × Tryte :=
  (Tryte.ofInt w, Tryte.ofInt (((w : Int) - wrap w) / 19683))

/-- The instruction the decoder reads from a number of the opcode table (log entry 12). The machine
has trits and no bits, so the number of bits says nothing more than the number does. -/
def decodeTableWord (_nbits w : Nat) : Option Instr :=
  match decodeStream [(tableTrytes w).1, (tableTrytes w).2] with
  | .ok (i, _) => some i
  | .error _ => none

end Sys2Proof
end

