-- ==== Sys2Proof/Machine/State.lean ====
section
/-! DEFINITION. The machine's state as plain data (10_state.md), the ways a step can stop, and the
state right after reset. -/

namespace Sys2Proof.Machine

/-- The register file x[0] .. x[8] (10_state.md R20, R21). -/
structure Regs where
  r0 : Tryte
  r1 : Tryte
  r2 : Tryte
  r3 : Tryte
  r4 : Tryte
  r5 : Tryte
  r6 : Tryte
  ra : Tryte
  sp : Tryte
deriving DecidableEq, Repr

/-- The memory M: cells by their backing offset, address + 9841 (20_memory.md R50), in canonical form
(`Memory.wf`). A cell that is not listed holds `ZERO` (10_state.md R33, R34). -/
abbrev Memory := List (Nat × Tryte)

/-- The canonical form: offsets strictly rising and inside the 19683 cells, no cell listed that holds
`ZERO`. -/
abbrev Memory.wf (m : Memory) : Prop :=
  m.Pairwise (fun c d => c.1 < d.1) ∧ ∀ c ∈ m, c.1 < 19683 ∧ c.2 ≠ Tryte.zero

/-- One registration in the watcher table W (10_state.md R29): the callback, named by a number, and
the address it watches. The table lists registrations in the order they were made (log entry 9). -/
structure Watcher where
  address : Tryte
  callback : Nat
deriving DecidableEq, Repr

/-- The causes of the fatal halt that typed trits and tryte addresses leave (60_exceptions.md R292). -/
inductive HaltCause where
  /-- Dispatch found no instruction for the opcode (41_cpu_step.md R158). -/
  | unknownOpcode
  /-- DIV or MOD by zero (42_arithmetic.md R173, R174). -/
  | divideByZero
deriving DecidableEq, Repr

/-- The non-fatal diagnostics (60_exceptions.md R293). -/
inductive DiagKind where
  | missingOperand
deriving DecidableEq, Repr

/-- The events of the output trace (10_state.md R31). -/
inductive Event where
  /-- A watcher's notification (20_memory.md R52), with the number of the callback that got it (log
  entry 9). -/
  | watchNotify (callback : Nat) (value address : Tryte)
  /-- A store into the tile-map region (44_move_load_store.md R215). -/
  | tileChanged (index : Int) (u v : Tryte)
  /-- A non-fatal diagnostic (60_exceptions.md R293). -/
  | diag (kind : DiagKind)
  /-- The fatal halt: cause, address of the faulting instruction word, the word (60_exceptions.md
  R292). -/
  | halt (cause : HaltCause) (address word : Tryte)
deriving DecidableEq, Repr

/-- The run state (10_state.md R32). -/
inductive RunState where
  | unloaded
  | loaded
  | running
  | stopped
  | halted
deriving DecidableEq, Repr

/-- The whole state of the core (10_state.md). -/
structure State where
  /-- x[0] .. x[8] (R20). -/
  regs : Regs
  /-- The program counter (R24). -/
  pc : Tryte
  /-- C, the carry trit of the user ALU (R26). -/
  carry : Trit
  /-- CI, the carry trit of the internal ALU, hidden state (R27; log entry 4). -/
  ci : Trit
  /-- M (R28). -/
  mem : Memory
  /-- W (R29). -/
  watchers : List Watcher
  /-- The run state (R32). -/
  run : RunState
  /-- The output trace, oldest event first (R31). -/
  trace : List Event
  /-- The model's own: how many free values have been drawn (log entry 2). -/
  draws : Nat
deriving DecidableEq, Repr

/-- Why the machine stops with a fault. -/
inductive Fault where
  /-- A host request to write at an integer that is no address of the machine: "undefined/fatal
  (bounds violation)" (20_memory.md R53, U1). Raised by `hostAct` alone; no step can raise it. Safe:
  nothing is claimed of what follows. -/
  | memoryBounds
deriving DecidableEq, Repr

/-- Why a request has no meaning. -/
inductive Refusal where
  /-- An instruction without a meaning; no arm of `exec` answers it. Safe. -/
  | notModelled (mnemonic : String)
  /-- `step` with no memory attached "is illegal" (41_cpu_step.md R162, decision D23). Raised by
  `step`. Safe: the spec gives it no meaning. -/
  | stepUnloaded
  /-- A host request that has no row in the complete table of run-state transitions
  (70_reset_and_hazards.md R324), or that needs the memory an Unloaded core does not have. Raised by
  `hostAct`. Safe: the spec gives it no effect (log entry 11). -/
  | hostActionIllegal
  /-- A host write outside `HOST_CELLS` (20_memory.md R59). Raised by `hostAct`. Safe: the spec gives
  the host no such write. -/
  | notHostCell
deriving DecidableEq, Repr

/-- Every register `ZERO` (10_state.md R33, R35). -/
def Regs.zero : Regs :=
  ⟨.zero, .zero, .zero, .zero, .zero, .zero, .zero, .zero, .zero⟩

/-- The machine right after construction (10_state.md R33, R36; 70_reset_and_hazards.md R320), which
`reset()` leaves Unloaded (R35, R324; log entry 3). The carry is unspecified by the spec: `o` is the
model's choice (log entry 1); `ci` likewise (log entry 4). -/
def State.reset : State :=
  { regs := Regs.zero
    pc := Config.entry
    carry := .zero
    ci := .zero
    mem := []
    watchers := []
    run := .unloaded
    trace := []
    draws := 0 }

end Sys2Proof.Machine
end

