-- ==== Sys2Proof/Machine/Ops.lean ====
section
/-! DEFINITION. The named operations every meaning is written over: registers, memory, events, the
program counter, fetch, the tile-map policy, the fatal halt and the diagnostic. There is no return from
the halt (60_exceptions.md R297): only the host's `load` and `reset()` leave it (Lifecycle.lean). -/

namespace Sys2Proof.Machine

/-- x[i] (00_scope.md R16). -/
def Regs.get (x : Regs) : Reg → Tryte
  | .r0 => x.r0 | .r1 => x.r1 | .r2 => x.r2 | .r3 => x.r3 | .r4 => x.r4 | .r5 => x.r5
  | .r6 => x.r6 | .ra => x.ra | .sp => x.sp

/-- x[i] <- v (00_scope.md R16). No register is hardwired (10_state.md R22). -/
def Regs.set (x : Regs) (r : Reg) (v : Tryte) : Regs :=
  match r with
  | .r0 => { x with r0 := v } | .r1 => { x with r1 := v } | .r2 => { x with r2 := v }
  | .r3 => { x with r3 := v } | .r4 => { x with r4 := v } | .r5 => { x with r5 := v }
  | .r6 => { x with r6 := v } | .ra => { x with ra := v } | .sp => { x with sp := v }

/-- The value of a register. -/
def State.readReg (s : State) (r : Reg) : Tryte := s.regs.get r

/-- A register written. -/
def State.writeReg (s : State) (r : Reg) (v : Tryte) : State := { s with regs := s.regs.set r v }

/-- The user carry C written. -/
def State.setCarry (s : State) (c : Trit) : State := { s with carry := c }

/-- The pc written (00_scope.md R16). -/
def State.setPc (s : State) (t : Tryte) : State := { s with pc := t }

/-- Events appended to the output trace (10_state.md R31). -/
def State.emit (s : State) (es : List Event) : State := { s with trace := s.trace ++ es }

/-- The backing offset of an address: address + 9841 (20_memory.md R50). -/
def cellOf (a : Tryte) : Nat := (a.toInt + 9841).toNat

/-- The cell at an offset; one that is not listed holds `ZERO` (10_state.md R33, R34). -/
def readCell : Memory → Nat → Tryte
  | [], _ => Tryte.zero
  | (k, v) :: m, a => if a = k then v else readCell m a

/-- A cell written, the list kept in canonical form. -/
def writeCell : Memory → Nat → Tryte → Memory
  | [], a, v => if v = Tryte.zero then [] else [(a, v)]
  | (k, w) :: m, a, v =>
    if a < k then if v = Tryte.zero then (k, w) :: m else (a, v) :: (k, w) :: m
    else if a = k then if v = Tryte.zero then m else (a, v) :: m
    else (k, w) :: writeCell m a v

/-- `MemRead(a, 1)` (20_memory.md R51): no side effect. -/
def State.memRead (s : State) (a : Tryte) : Tryte := readCell s.mem (cellOf a)

/-- The notifications of a store: one for each callback registered for exactly that address, in
registration order (20_memory.md R52). -/
def notifications (ws : List Watcher) (a v : Tryte) : List Event :=
  (ws.filter fun w => w.address = a).map fun w => .watchNotify w.callback v a

/-- `MemWrite(a, 1, v)` (20_memory.md R52): the cell, then its watchers. -/
def State.memWrite (s : State) (a v : Tryte) : State :=
  { s with mem := writeCell s.mem (cellOf a) v, trace := s.trace ++ notifications s.watchers a v }

/-- The events of the tile-map store policy (44_move_load_store.md R215), for a region and a field
layout. -/
def tileEvents (base size : Int) (fields : Tryte → Tryte × Tryte) (a v : Tryte) : List Event :=
  if base ≤ a.toInt ∧ a.toInt ≤ base + size - 1 then
    [.tileChanged (a.toInt - base) (fields v).1 (fields v).2]
  else []

/-- `tile_policy(a, v)` (44_move_load_store.md R215) with the machine's open parameters. -/
def State.tilePolicy (s : State) (a v : Tryte) : State :=
  s.emit (tileEvents Config.tileBase Config.tileSize Config.tileFields a v)

/-- What STA and STO do at an address: the store, its watchers, then the tile policy
(44_move_load_store.md R212, R214). -/
def State.store (s : State) (a v : Tryte) : State := (s.memWrite a v).tilePolicy a v

/-- The pc past one fetched tryte, by a fresh add of the internal ALU (10_state.md R25, R27): CI is
written, C is not. -/
def State.advancePc (s : State) : State :=
  { s with pc := (aluAdd s.pc (Tryte.ofInt 1) false s.ci).1
           ci := (aluAdd s.pc (Tryte.ofInt 1) false s.ci).2 }

/-- The effective address of LDO and STO, base plus offset on the internal ALU (44_move_load_store.md
R213, R214). -/
def effectiveAddress (base offset : Tryte) (s : State) : Tryte := (aluAdd base offset false s.ci).1

/-- The state after that addition: CI written (10_state.md R27). -/
def State.addressed (s : State) (base offset : Tryte) : State :=
  { s with ci := (aluAdd base offset false s.ci).2 }

/-- `raise Halt(cause)` (60_exceptions.md R291, R292): the machine's one exception. Nothing is saved
and no handler is entered: the run state becomes Halted and the event is appended; registers, carry,
memory and the (already advanced) pc stay. -/
def State.raiseHalt (s : State) (cause : HaltCause) (address word : Tryte) : State :=
  { s with run := .halted, trace := s.trace ++ [.halt cause address word] }

/-- The halt raised by an instruction that is being executed: its word, and its address, which is the
advanced pc less its length (60_exceptions.md R292; log entry 13). -/
def State.haltIn (s : State) (cause : HaltCause) (i : Instr) : State :=
  s.raiseHalt cause (Tryte.ofInt (s.pc.toInt - i.length)) (encodeWord i)

/-- `report Diag(MissingOperand)` (60_exceptions.md R293): the event and nothing else. -/
def State.reportMissingOperand (s : State) : State := s.emit [.diag .missingOperand]

/-- What the fetch phases of a step deliver: the address of the instruction word, the word, z, and the
state with the pc past the whole instruction. -/
structure Fetched where
  address : Tryte
  word : Tryte
  z : Option Tryte
  state : State
deriving DecidableEq, Repr

/-- Phases 1 to 3 of a step (41_cpu_step.md R150, R151, R153): the word, and z when the mode trit is
+1, whatever the opcode. -/
def State.fetch (s : State) : Fetched :=
  let word := s.memRead s.pc
  let s1 := s.advancePc
  match modeField word with
  | .wi => { address := s.pc, word := word, z := some (s1.memRead s1.pc), state := s1.advancePc }
  | _ => { address := s.pc, word := word, z := none, state := s1 }

end Sys2Proof.Machine
end

