-- ==== Sys2Proof/Machine/Operands.lean ====
section
/-! DEFINITION. Operand resolution (41_cpu_step.md R154 to R156; 30_encoding.md R88) and the shape the
two-operand instructions share. -/

namespace Sys2Proof.Machine

/-- The short immediate as a tryte, `sext_9(ysel)` (30_encoding.md R88). -/
def shortImmediate (literal : Int) : Tryte := Tryte.ofInt literal

/-- `yval` (41_cpu_step.md R155): a register in RR and WI mode, the literal in SI mode. -/
def yval (op : Operand) (s : State) : Tryte :=
  match op with
  | .rr y => s.readReg y
  | .si n => shortImmediate n
  | .wi y _ => s.readReg y

/-- `op2` (41_cpu_step.md R156): z if present, else y. -/
def op2 (op : Operand) (s : State) : Tryte :=
  match op with
  | .wi _ z => z
  | _ => yval op s

/-- "Apply the matching ALU operation to register x, using z if present else y as the second operand,
storing the result back into x" (42_arithmetic.md, 43_logic_shift.md): the carry is unchanged. -/
def applyToX (f : Tryte → Tryte → Tryte) (x : Reg) (op : Operand) (s : State) : State :=
  s.writeReg x (f (s.readReg x) (op2 op s))

/-- The six conditional branches (45_control_transfer.md R238, R239): two registers compared as
integers and the pc set to z; in RR and SI mode there is no target and the diagnostic is reported. -/
def branchIf (holds : Int → Int → Bool) (x : Reg) (op : Operand) (s : State) : State :=
  match op with
  | .wi y z => if holds (s.readReg x).toInt (s.readReg y).toInt then s.setPc z else s
  | _ => s.reportMissingOperand

end Sys2Proof.Machine
end

