-- ==== Sys2Proof/Machine/Arithmetic.lean ====
section
/-! DEFINITION. ADD, ADC, MUL, DIV, MOD, NEG (42_arithmetic.md). In every meaning the pc is already past
the instruction (41_cpu_step.md R157; log entry 14). -/

namespace Sys2Proof.Machine

/-- ADD (R170): a fresh add on the user ALU; writes C. -/
def execAdd (x : Reg) (op : Operand) (s : State) : Host.Outcome State Fault Refusal :=
  .next ((applyToX (fun a b => (aluAdd a b false s.carry).1) x op s).setCarry
    (carryAdd (s.readReg x) (op2 op s) s.carry))

/-- ADC (R171): a chained add, the old C seeding digit 0; writes C. -/
def execAdc (x : Reg) (op : Operand) (s : State) : Host.Outcome State Fault Refusal :=
  .next ((applyToX (fun a b => (aluAdd a b true s.carry).1) x op s).setCarry
    (carryAdc (s.readReg x) (op2 op s) s.carry))

/-- MUL (R172). -/
def execMul (x : Reg) (op : Operand) (s : State) : Host.Outcome State Fault Refusal :=
  .next (applyToX aluMultiply x op s)

/-- DIV (R173): a zero divisor takes the fatal halt. -/
def execDiv (x : Reg) (op : Operand) (s : State) : Host.Outcome State Fault Refusal :=
  .next (if (op2 op s).toInt = 0 then s.haltIn .divideByZero (.div x op)
    else applyToX aluDivide x op s)

/-- MOD (R174): a zero divisor takes the fatal halt. -/
def execMod (x : Reg) (op : Operand) (s : State) : Host.Outcome State Fault Refusal :=
  .next (if (op2 op s).toInt = 0 then s.haltIn .divideByZero (.mod x op)
    else applyToX aluModulo x op s)

/-- NEG (R175): a move-and-negate; the old value of x is not read. -/
def execNeg (x : Reg) (op : Operand) (s : State) : Host.Outcome State Fault Refusal :=
  .next (applyToX (fun _ b => aluNeg b) x op s)

end Sys2Proof.Machine
end

