-- ==== Sys2Proof/Machine/Control.lean ====
section
/-! DEFINITION. JEQ, JNE, JGT, JLT, JGE, JLE, JMP, JAL (45_control_transfer.md). -/

namespace Sys2Proof.Machine

/-- JEQ (R230). -/
def execJeq (x : Reg) (op : Operand) (s : State) : Host.Outcome State Fault Refusal :=
  .next (branchIf (fun a b => a = b) x op s)

/-- JNE (R231). -/
def execJne (x : Reg) (op : Operand) (s : State) : Host.Outcome State Fault Refusal :=
  .next (branchIf (fun a b => a ≠ b) x op s)

/-- JGT (R232). -/
def execJgt (x : Reg) (op : Operand) (s : State) : Host.Outcome State Fault Refusal :=
  .next (branchIf (fun a b => a > b) x op s)

/-- JLT (R233). -/
def execJlt (x : Reg) (op : Operand) (s : State) : Host.Outcome State Fault Refusal :=
  .next (branchIf (fun a b => a < b) x op s)

/-- JGE (R234). -/
def execJge (x : Reg) (op : Operand) (s : State) : Host.Outcome State Fault Refusal :=
  .next (branchIf (fun a b => a ≥ b) x op s)

/-- JLE (R235). -/
def execJle (x : Reg) (op : Operand) (s : State) : Host.Outcome State Fault Refusal :=
  .next (branchIf (fun a b => a ≤ b) x op s)

/-- JMP (R236): the x field is ignored (30_encoding.md R92). -/
def execJmp (_x : Reg) (op : Operand) (s : State) : Host.Outcome State Fault Refusal :=
  .next (s.setPc (op2 op s))

/-- JAL (R237): the target is read before ra is written; ra takes the advanced pc. The x field is
ignored (30_encoding.md R92). -/
def execJal (_x : Reg) (op : Operand) (s : State) : Host.Outcome State Fault Refusal :=
  .next ((s.writeReg .ra s.pc).setPc (op2 op s))

end Sys2Proof.Machine
end

