-- ==== Sys2Proof/Machine/LogicShift.lean ====
section
/-! DEFINITION. MIN, MAX, XOR, CON, ANY, SHR, SHU (43_logic_shift.md). -/

namespace Sys2Proof.Machine

/-- MIN (R190). -/
def execMin (x : Reg) (op : Operand) (s : State) : Host.Outcome State Fault Refusal :=
  .next (applyToX aluMin x op s)

/-- MAX (R191). -/
def execMax (x : Reg) (op : Operand) (s : State) : Host.Outcome State Fault Refusal :=
  .next (applyToX aluMax x op s)

/-- XOR (R192). -/
def execXor (x : Reg) (op : Operand) (s : State) : Host.Outcome State Fault Refusal :=
  .next (applyToX aluXor x op s)

/-- CON (R193). -/
def execCon (x : Reg) (op : Operand) (s : State) : Host.Outcome State Fault Refusal :=
  .next (applyToX aluConsensus x op s)

/-- ANY (R194). -/
def execAny (x : Reg) (op : Operand) (s : State) : Host.Outcome State Fault Refusal :=
  .next (applyToX aluAccept x op s)

/-- SHR (R195): writes C unless the count is zero; the count operand is not modified. -/
def execShr (x : Reg) (op : Operand) (s : State) : Host.Outcome State Fault Refusal :=
  .next ((applyToX (fun a n => aluShiftRight a n.toInt) x op s).setCarry
    (carryShift (s.readReg x) (op2 op s).toInt s.carry))

/-- SHU (R196): the count operand is not modified. -/
def execShu (x : Reg) (op : Operand) (s : State) : Host.Outcome State Fault Refusal :=
  .next (applyToX (fun a n => aluShiftUp a n.toInt) x op s)

end Sys2Proof.Machine
end

