-- ==== Sys2Proof/Machine/MoveLoadStore.lean ====
section
/-! DEFINITION. MOV, LDA, STA, LDO, STO (44_move_load_store.md). -/

namespace Sys2Proof.Machine

/-- MOV (R210). -/
def execMov (x : Reg) (op : Operand) (s : State) : Host.Outcome State Fault Refusal :=
  .next (applyToX (fun _ b => aluCopy b) x op s)

/-- LDA (R211): the address is op2 in every mode. -/
def execLda (x : Reg) (op : Operand) (s : State) : Host.Outcome State Fault Refusal :=
  .next (applyToX (fun _ a => s.memRead a) x op s)

/-- STA (R212): the address is op2 in every mode. -/
def execSta (x : Reg) (op : Operand) (s : State) : Host.Outcome State Fault Refusal :=
  .next (s.store (op2 op s) (s.readReg x))

/-- LDO (R213); without z the diagnostic of R216. -/
def execLdo (x : Reg) (op : Operand) (s : State) : Host.Outcome State Fault Refusal :=
  .next (match op with
    | .wi y z => (s.addressed (s.readReg y) z).writeReg x
        (s.memRead (effectiveAddress (s.readReg y) z s))
    | _ => s.reportMissingOperand)

/-- STO (R214); without z the diagnostic of R216. -/
def execSto (x : Reg) (op : Operand) (s : State) : Host.Outcome State Fault Refusal :=
  .next (match op with
    | .wi y z => (s.addressed (s.readReg y) z).store
        (effectiveAddress (s.readReg y) z s) (s.readReg x)
    | _ => s.reportMissingOperand)

end Sys2Proof.Machine
end

