-- ==== Sys2Proof/Machine/Dispatch.lean ====
section
/-! DEFINITION. Dispatch (41_cpu_step.md R157): one arm for each instruction. -/

namespace Sys2Proof.Machine

/-- The instruction's own effect, on a state whose pc is already past it (41_cpu_step.md R157). -/
def exec (i : Instr) (s : State) : Host.Outcome State Fault Refusal :=
  match i with
  | .add x op => Sys2Proof.Machine.execAdd x op s
  | .adc x op => Sys2Proof.Machine.execAdc x op s
  | .mul x op => Sys2Proof.Machine.execMul x op s
  | .div x op => Sys2Proof.Machine.execDiv x op s
  | .mod x op => Sys2Proof.Machine.execMod x op s
  | .neg x op => Sys2Proof.Machine.execNeg x op s
  | .min x op => Sys2Proof.Machine.execMin x op s
  | .max x op => Sys2Proof.Machine.execMax x op s
  | .xor x op => Sys2Proof.Machine.execXor x op s
  | .con x op => Sys2Proof.Machine.execCon x op s
  | .any x op => Sys2Proof.Machine.execAny x op s
  | .shr x op => Sys2Proof.Machine.execShr x op s
  | .shu x op => Sys2Proof.Machine.execShu x op s
  | .mov x op => Sys2Proof.Machine.execMov x op s
  | .lda x op => Sys2Proof.Machine.execLda x op s
  | .sta x op => Sys2Proof.Machine.execSta x op s
  | .ldo x op => Sys2Proof.Machine.execLdo x op s
  | .sto x op => Sys2Proof.Machine.execSto x op s
  | .jeq x op => Sys2Proof.Machine.execJeq x op s
  | .jne x op => Sys2Proof.Machine.execJne x op s
  | .jgt x op => Sys2Proof.Machine.execJgt x op s
  | .jlt x op => Sys2Proof.Machine.execJlt x op s
  | .jge x op => Sys2Proof.Machine.execJge x op s
  | .jle x op => Sys2Proof.Machine.execJle x op s
  | .jmp x op => Sys2Proof.Machine.execJmp x op s
  | .jal x op => Sys2Proof.Machine.execJal x op s

end Sys2Proof.Machine
end

