-- ==== Sys2Proof/Machine/Step.lean ====
section
/-! DEFINITION. `step()`, one fetch-decode-execute cycle (41_cpu_step.md R150). -/

namespace Sys2Proof.Machine

/-- One instruction of a core with memory attached and not halted: fetch, decode, dispatch; an opcode
that names no instruction takes the fatal halt with the pc past the fetched trytes (41_cpu_step.md
R150, R158). -/
def cycle (s : State) : Host.Outcome State Fault Refusal :=
  let f := s.fetch
  match decodeWord f.word f.z with
  | .ok i => exec i f.state
  | .error _ => .next (f.state.raiseHalt .unknownOpcode f.address f.word)

/-- `step()` (41_cpu_step.md R150, R162): illegal while Unloaded, without effect while Halted. -/
def step (s : State) : Host.Outcome State Fault Refusal :=
  match s.run with
  | .unloaded => .refused .stepUnloaded
  | .halted => .next s
  | .loaded | .running | .stopped => cycle s

/-- The state with a table word's instruction where the next step fetches, and a memory attached: it
stands for the host's load of that instruction (log entries 3 and 12). -/
def State.withFetchWord (s : State) (_nbits w : Nat) : State :=
  { s with
    mem := writeCell (writeCell s.mem (cellOf s.pc) (tableTrytes w).1)
      (cellOf s.advancePc.pc) (tableTrytes w).2
    run := .loaded }

end Sys2Proof.Machine
end

