-- ==== Sys2Proof/Machine/Convert.lean ====
section
/-! DEFINITION. Trit and tryte conversions (40_trit_tryte_alu.md R114 to R117). Strings are lists of
characters. -/

namespace Sys2Proof.Machine

/-- The digits of `tryte_from_decimal` for a magnitude, least significant first, at most k of them:
remainder 2 gives -1 and carries one into the next digit (R114). -/
def decimalDigits : Nat → Nat → List Trit
  | 0, _ => []
  | k + 1, m =>
    if m = 0 then []
    else if m % 3 = 2 then .neg :: decimalDigits k ((m + 1) / 3)
    else if m % 3 = 1 then .pos :: decimalDigits k ((m - 1) / 3)
    else .zero :: decimalDigits k (m / 3)

/-- The tryte of a list of digits, least significant first, padded with zero trits. -/
def tryteOfDigits (ds : List Trit) : Tryte := Tryte.ofDigits fun d => ds.getD d .zero

/-- `tryte_from_decimal(n)` by R114's steps, the nine least significant digits kept (decision D6): the
sign of the input flips all produced trits. -/
def tryteFromDecimal (n : Int) : Tryte :=
  let t := tryteOfDigits (decimalDigits 9 n.natAbs)
  if n < 0 then t.map negTrit else t

/-- The glyph of a trit (R110). -/
def glyphOfTrit : Trit → Char
  | .neg => '-'
  | .zero => 'o'
  | .pos => '+'

/-- The trit of a glyph (R110). -/
def tritOfGlyph (c : Char) : Option Trit :=
  if c = '-' then some .neg else if c = 'o' then some .zero else if c = '+' then some .pos else none

/-- `string_from_tryte(t)`: the nine glyphs, most significant first (R117). -/
def stringFromTryte (t : Tryte) : List Char :=
  [glyphOfTrit t.d8, glyphOfTrit t.d7, glyphOfTrit t.d6, glyphOfTrit t.d5, glyphOfTrit t.d4,
    glyphOfTrit t.d3, glyphOfTrit t.d2, glyphOfTrit t.d1, glyphOfTrit t.d0]

/-- One of the digits `0` to `9`. -/
def isDecimalDigit (c : Char) : Bool := '0' ≤ c && c ≤ '9'

/-- One or more decimal digits as a number. -/
def parseNat (s : List Char) : Option Nat :=
  if s ≠ [] ∧ s.all isDecimalDigit then
    some (s.foldl (fun n c => 10 * n + (c.toNat - '0'.toNat)) 0)
  else none

/-- The decimal grammar of R116: an optional sign, then one or more digits. -/
def parseDecimal (s : List Char) : Option Int :=
  match s with
  | '+' :: r => (parseNat r).map fun n => (n : Int)
  | '-' :: r => (parseNat r).map fun n => -(n : Int)
  | r => (parseNat r).map fun n => (n : Int)

/-- A string of 1 to 9 glyphs, padded on the left with `o` (R116). -/
def parseGlyphs (s : List Char) : Option Tryte :=
  if s = [] ∨ 9 < s.length then none
  else (s.mapM tritOfGlyph).map fun ts => tryteOfDigits ts.reverse

/-- `tryte_from_string(s)` (R116): a decimal where it parses as one, which must be in range (decision
D20), else a glyph string; `none` is the parse error. -/
def tryteFromString (s : List Char) : Option Tryte :=
  match parseDecimal s with
  | some n => if -9841 ≤ n ∧ n ≤ 9841 then some (tryteFromDecimal n) else none
  | none => parseGlyphs s

/-- A tribble: the three least significant trits of a tryte, -13..+13 (R112). No machine rule uses
one. -/
def tribble (t : Tryte) : Int := 9 * t.d2.toInt + 3 * t.d1.toInt + t.d0.toInt

end Sys2Proof.Machine
end

