-- ==== Sys2Proof/Machine/Assembler.lean ====
section
/-! DEFINITION. The two-pass assembler (46_assembler.md): software-only reference, no part of the
hardware and not called by the step. Text is a list of characters. Its lexical choices are log entry
17. -/

namespace Sys2Proof.Machine

/-- What an operand position takes (R261 to R264). -/
inductive OperandKind where
  /-- A register name (R257). -/
  | register
  /-- What the y/z chooser takes: a register, a literal or a symbol reference (R260). -/
  | chooser
  /-- An address expression: a literal or a symbol reference (R263). -/
  | address
deriving DecidableEq, Repr

/-- How many operands a mnemonic takes (R261 to R264, R267 to R269). -/
inductive OperandCount where
  | exactly (n : Nat)
  | atLeastOne
deriving DecidableEq, Repr

/-- What is wrong with a source text, with the expectation violated (R272). Operands are counted
from 1. -/
inductive AsmFailure where
  | unknownMnemonic (name : List Char)
  /-- "A mnemonic-specific error naming which operand failed and what was expected" (R261). -/
  | wrongOperandKind (mnemonic : List Char) (operand : Nat) (expected : OperandKind)
  | wrongOperandCount (mnemonic : List Char) (expected : OperandCount) (given : Nat)
  /-- A label line that is not of the form `.name` (R253). -/
  | malformedLabel
  /-- A data line that is not of the form `$name` or `$name[size]`, the size a decimal (R254). -/
  | malformedData
  | duplicateName (name : List Char)
  /-- A data size that is not positive (R254). -/
  | nonPositiveSize (size : Int)
  | undeclaredSymbol (name : List Char)
  /-- An operand that is neither a register nor a literal nor a symbol reference (R257 to R259). -/
  | malformedLiteral (mnemonic : List Char) (operand : Nat) (expected : OperandKind)
  /-- A decimal literal, or a symbol plus offset, outside -9841..+9841 (R259, R272). -/
  | valueOutOfRange (value : Int)
  /-- The layout passes address +9841: the last address it would need (R272). -/
  | layoutOverflow (address : Int)
deriving DecidableEq, Repr

/-- An error names its line, by number from 1 and by text, and the failure, which holds the expectation
violated (R272). -/
structure AsmError where
  line : Nat
  text : List Char
  failure : AsmFailure
deriving DecidableEq, Repr

/-- An operand as written (R257 to R259). A symbol's name holds its sigil (R255). -/
inductive AsmOperand where
  | reg (r : Reg)
  | literal (n : Int)
  | symbol (name : List Char) (offset : Int)
deriving DecidableEq, Repr

/-- A trailing tryte before pass 2: known, or a symbol plus offset still to be resolved (R252). -/
inductive PendingZ where
  | value (z : Tryte)
  | symbol (name : List Char) (offset : Int)
deriving DecidableEq, Repr

/-- The operand of an unresolved instruction record. -/
inductive PendingOperand where
  | rr (y : Reg)
  | si (literal : Int)
  | wi (y : Reg) (z : PendingZ)
deriving DecidableEq, Repr

/-- An unresolved instruction record (R252). -/
structure Pending where
  mnemonic : Mnemonic
  x : Reg
  op : PendingOperand
deriving DecidableEq, Repr

/-- The trytes a record takes: "1 plus 1 more for every record carrying a trailing word" (R252). -/
def Pending.length (p : Pending) : Nat :=
  match p.op with
  | .wi _ _ => 2
  | _ => 1

/-! ### Characters and lines -/

/-- Leading and trailing white space removed. -/
def trim (s : List Char) : List Char :=
  ((s.dropWhile Char.isWhitespace).reverse.dropWhile Char.isWhitespace).reverse

/-- A text cut at every occurrence of a character. -/
def splitAtChar (c : Char) : List Char → List (List Char)
  | [] => [[]]
  | d :: r =>
    match splitAtChar c r with
    | [] => [[d]]
    | w :: ws => if d = c then [] :: w :: ws else (d :: w) :: ws

/-- A line without its comment, trimmed (R251). -/
def stripLine (s : List Char) : List Char := trim (s.takeWhile (· ≠ ';'))

/-- The characters of a name: letters, digits and underscores (R253). -/
def isNameChar (c : Char) : Bool := c.isAlphanum || c = '_'

/-- A name followed by nothing, or by a text in brackets (R253, R254, R259). -/
def parseNamed (s : List Char) : Option (List Char × Option (List Char)) :=
  let name := s.takeWhile isNameChar
  match name, s.dropWhile isNameChar with
  | [], _ => none
  | _, [] => some (name, none)
  | _, '[' :: r => if r.getLast? = some ']' then some (name, some r.dropLast) else none
  | _, _ => none

/-! ### Operands -/

/-- The register names (R257). -/
def regNames : List (List Char × Reg) :=
  [(['r', '0'], .r0), (['r', '1'], .r1), (['r', '2'], .r2), (['r', '3'], .r3), (['r', '4'], .r4),
    (['r', '5'], .r5), (['r', '6'], .r6), (['r', 'a'], .ra), (['s', 'p'], .sp)]

/-- The register of a name (R257). -/
def regOfName (s : List Char) : Option Reg := (regNames.find? fun p => p.1 == s).map (·.2)

/-- A register operand; anything else is of the wrong kind (R257, R261). -/
def parseReg (m : List Char) (k : Nat) (s : List Char) : Except AsmFailure Reg :=
  match regOfName s with
  | some r => .ok r
  | none => .error (.wrongOperandKind m k .register)

/-- Register operands from the k-th on. -/
def parseRegs (m : List Char) : Nat → List (List Char) → Except AsmFailure (List Reg)
  | _, [] => .ok []
  | k, s :: ss =>
    match parseReg m k s, parseRegs m (k + 1) ss with
    | .ok r, .ok rs => .ok (r :: rs)
    | .error e, _ => .error e
    | _, .error e => .error e

/-- A literal's value (R258); a decimal out of range fails as such (R272), anything else with the
failure given. -/
def parseLiteral (malformed : AsmFailure) (s : List Char) : Except AsmFailure Int :=
  match tryteFromString s, parseDecimal s with
  | some v, _ => .ok v.toInt
  | none, some n => .error (.valueOutOfRange n)
  | none, none => .error malformed

/-- The k-th operand of mnemonic m: a symbol reference by its sigil, else a register name, else a
literal (R257 to R259). DESIGN CHOICE (log entry 21): white space just inside the brackets of an offset
is trimmed, where R259 and R116 show none. -/
def parseOperand (m : List Char) (k : Nat) (expected : OperandKind) (s : List Char) :
    Except AsmFailure AsmOperand :=
  let malformed := AsmFailure.malformedLiteral m k expected
  match s with
  | [] => .error malformed
  | c :: r =>
    if c = '.' ∨ c = '$' then
      match parseNamed r with
      | none => .error malformed
      | some (name, none) => .ok (.symbol (c :: name) 0)
      | some (name, some off) =>
        (parseLiteral malformed (trim off)).map fun n => .symbol (c :: name) n
    else
      match regOfName s with
      | some r => .ok (.reg r)
      | none => (parseLiteral malformed s).map .literal

/-- The register whose selector is 0: what an unused field names (30_encoding.md R92). -/
def unusedReg : Reg := .r4

/-- The y/z chooser (R260). -/
def choose : AsmOperand → PendingOperand
  | .reg r => .rr r
  | .literal n =>
    if inField 4 n then .si n else .wi unusedReg (.value (tryteFromDecimal n))
  | .symbol name off => .wi unusedReg (.symbol name off)

/-- The address expression of a three-operand mnemonic: a literal or a symbol, never a register
(R263). -/
def addressExpr (m : List Char) (k : Nat) : AsmOperand → Except AsmFailure PendingZ
  | .reg _ => .error (.wrongOperandKind m k .address)
  | .literal n => .ok (.value (tryteFromDecimal n))
  | .symbol name off => .ok (.symbol name off)

/-! ### Mnemonics -/

/-- The upper-case names of the 26 mnemonics (R256). -/
def mnemonicNames : List (List Char × Mnemonic) :=
  ["ADD", "ADC", "MUL", "DIV", "MOD", "NEG", "MIN", "MAX", "XOR", "CON", "ANY", "SHR", "SHU", "MOV",
    "LDA", "STA", "LDO", "STO", "JEQ", "JNE", "JGT", "JLT", "JGE", "JLE", "JMP", "JAL"].map
      String.toList |>.zip Mnemonic.all

/-- How many operands a mnemonic takes, and of which kind (R261 to R264). -/
inductive AsmShape where
  /-- Register, chooser. -/
  | xy
  /-- Register, register, address. -/
  | xyz
  /-- Chooser. -/
  | j
deriving DecidableEq, Repr

/-- The shape of a mnemonic (R261 to R264). -/
def shapeOf : Mnemonic → AsmShape
  | .add | .adc | .mul | .div | .mod | .neg | .min | .max | .xor | .con | .any | .shr | .shu | .mov
  | .lda | .sta => .xy
  | .ldo | .sto | .jeq | .jne | .jgt | .jlt | .jge | .jle => .xyz
  | .jmp | .jal => .j

/-- How many operands a shape takes (R261 to R264). -/
def AsmShape.count : AsmShape → OperandCount
  | .xy => .exactly 2
  | .xyz => .exactly 3
  | .j => .exactly 1

/-- The record of a real instruction, its mnemonic as written being `name` (R261 to R264). -/
def parseReal (name : List Char) (m : Mnemonic) (ops : List (List Char)) :
    Except AsmFailure Pending :=
  match shapeOf m, ops with
  | .xy, [a, b] =>
    match parseReg name 1 a, parseOperand name 2 .chooser b with
    | .ok x, .ok o => .ok { mnemonic := m, x := x, op := choose o }
    | .error e, _ => .error e
    | _, .error e => .error e
  | .xyz, [a, b, c] =>
    match parseReg name 1 a, parseReg name 2 b, parseOperand name 3 .address c with
    | .ok x, .ok y, .ok o =>
      (addressExpr name 3 o).map fun z => { mnemonic := m, x := x, op := .wi y z }
    | .error e, _, _ => .error e
    | _, .error e, _ => .error e
    | _, _, .error e => .error e
  | .j, [a] =>
    (parseOperand name 1 .chooser a).map fun o =>
      { mnemonic := m, x := unusedReg, op := choose o }
  | shape, _ => .error (.wrongOperandCount name shape.count ops.length)

/-- NOP: `MOV r0, r0` in RR mode (R267). -/
def expandNop : List Pending := [{ mnemonic := .mov, x := .r0, op := .rr .r0 }]

/-- PSH of one register: store at the stack pointer, then increment it (R268). -/
def pushOne (r : Reg) : List Pending :=
  [{ mnemonic := .sta, x := r, op := .rr .sp }, { mnemonic := .add, x := .sp, op := .si 1 }]

/-- POP of one register: decrement the stack pointer, then load from it (R269). -/
def popOne (r : Reg) : List Pending :=
  [{ mnemonic := .add, x := .sp, op := .si (-1) }, { mnemonic := .lda, x := r, op := .rr .sp }]

/-- PSH: right to left (R268). -/
def expandPush (rs : List Reg) : List Pending := rs.reverse.flatMap pushOne

/-- POP: left to right (R269). -/
def expandPop (rs : List Reg) : List Pending := rs.flatMap popOne

/-- The records of an instruction line's mnemonic and operands (R256, R261 to R269). DESIGN CHOICE (log
entry 25): POP takes one or more operands, as R268 says of PSH, where R269 gives no count. -/
def parseInstr (name : List Char) (ops : List (List Char)) : Except AsmFailure (List Pending) :=
  if name = ['N', 'O', 'P'] then
    if ops = [] then .ok expandNop else .error (.wrongOperandCount name (.exactly 0) ops.length)
  else if name = ['P', 'S', 'H'] then
    if ops = [] then .error (.wrongOperandCount name .atLeastOne 0)
    else (parseRegs name 1 ops).map expandPush
  else if name = ['P', 'O', 'P'] then
    if ops = [] then .error (.wrongOperandCount name .atLeastOne 0)
    else (parseRegs name 1 ops).map expandPop
  else
    match mnemonicNames.find? fun p => p.1 == name with
    | some (_, m) => (parseReal name m ops).map fun p => [p]
    | none => .error (.unknownMnemonic name)

/-- An instruction line cut into its mnemonic and its comma-separated, trimmed operands (R256). -/
def parseInstrLine (s : List Char) : Except AsmFailure (List Pending) :=
  let name := s.takeWhile fun c => !c.isWhitespace
  let rest := trim (s.dropWhile fun c => !c.isWhitespace)
  parseInstr name (if rest = [] then [] else (splitAtChar ',' rest).map trim)

/-! ### Pass 1: layout -/

/-- A symbol with its value: name with sigil, address (for the symbol of the tile map's size, that size),
and size where the spec gives it one, which it does for data reservations alone (R254). -/
structure Symbol where
  name : List Char
  address : Int
  size : Option Int
deriving DecidableEq, Repr

/-- A record laid out at an address, from a source line. -/
structure Placed where
  address : Int
  line : Nat
  text : List Char
  record : Pending
deriving DecidableEq, Repr

/-- The state of pass 1: the running address, the labels and data bound so far, the records in address
order. -/
structure Layout where
  address : Int
  labels : List Symbol
  data : List Symbol
  records : List Placed
deriving DecidableEq, Repr

/-- Pass 1 starts at `ENTRY` (R252). -/
def Layout.start : Layout :=
  { address := Config.entry.toInt, labels := [], data := [], records := [] }

/-- A label bound to the current address (R253). -/
def layLabel (l : Layout) (r : List Char) : Except AsmFailure Layout :=
  match parseNamed r with
  | some (name, none) =>
    if l.labels.any fun s => s.name == '.' :: name then .error (.duplicateName ('.' :: name))
    else if 9841 < l.address then .error (.layoutOverflow l.address)
    else .ok { l with
      labels := l.labels ++ [{ name := '.' :: name, address := l.address, size := none }] }
  | _ => .error .malformedLabel

/-- A reservation of a given size (R254). -/
def layReservation (l : Layout) (name : List Char) (size : Int) : Except AsmFailure Layout :=
  if size ≤ 0 then .error (.nonPositiveSize size)
  else if l.data.any fun s => s.name == '$' :: name then .error (.duplicateName ('$' :: name))
  else if 9841 < l.address + size - 1 then .error (.layoutOverflow (l.address + size - 1))
  else .ok { l with
    address := l.address + size
    data := l.data ++ [{ name := '$' :: name, address := l.address, size := some size }] }

/-- A data reservation, size 1 where none is written (R254). DESIGN CHOICE (log entry 21): white space
just inside the brackets of the size is trimmed, where R254 shows none. DESIGN CHOICE (log entry 24): the
size is a count and no literal, so R272's range of a decimal literal is not asked of it; only the layout's
end bounds it. -/
def layData (l : Layout) (r : List Char) : Except AsmFailure Layout :=
  match parseNamed r with
  | some (name, none) => layReservation l name 1
  | some (name, some size) =>
    match parseDecimal (trim size) with
    | some n => layReservation l name n
    | none => .error .malformedData
  | none => .error .malformedData

/-- Records laid out one after another (R252). -/
def layRecords (line : Nat) (text : List Char) : List Pending → Layout → Except AsmFailure Layout
  | [], l => .ok l
  | p :: ps, l =>
    if 9841 < l.address + p.length - 1 then .error (.layoutOverflow (l.address + p.length - 1))
    else layRecords line text ps { l with
      address := l.address + p.length
      records := l.records ++ [{ address := l.address, line := line, text := text, record := p }] }

/-- One stripped line (R251, R252). -/
def layLine (line : Nat) (s : List Char) (l : Layout) : Except AsmFailure Layout :=
  match s with
  | [] => .ok l
  | c :: r =>
    if c = '.' then layLabel l r
    else if c = '$' then layData l r
    else
      match parseInstrLine s with
      | .ok ps => layRecords line s ps l
      | .error e => .error e

/-- Pass 1 over the lines from number n on (R252). -/
def passOne : Nat → List (List Char) → Layout → Except AsmError Layout
  | _, [], l => .ok l
  | n, s :: ss, l =>
    match layLine n (stripLine s) l with
    | .ok l' => passOne (n + 1) ss l'
    | .error e => .error { line := n, text := stripLine s, failure := e }

/-! ### Pass 2: resolve and emit -/

/-- The final symbol table: hardware symbols, labels, data reservations (R255). -/
def resolvedSymbols (hw : List (List Char × Int)) (l : Layout) : List Symbol :=
  hw.map (fun p => { name := p.1, address := p.2, size := none }) ++ l.labels ++ l.data

/-- The same as names and values, for pass 2; a later entry shadows an earlier one (R255). -/
def symbolTable (hw : List (List Char × Int)) (l : Layout) : List (List Char × Int) :=
  (resolvedSymbols hw l).map fun s => (s.name, s.address)

/-- The value of a symbol (R255). -/
def lookupSymbol (table : List (List Char × Int)) (name : List Char) : Option Int :=
  (table.reverse.find? fun p => p.1 == name).map (·.2)

/-- A trailing tryte resolved (R255, R259). -/
def resolveZ (table : List (List Char × Int)) : PendingZ → Except AsmFailure Tryte
  | .value z => .ok z
  | .symbol name off =>
    match lookupSymbol table name with
    | none => .error (.undeclaredSymbol name)
    | some a =>
      if -9841 ≤ a + off ∧ a + off ≤ 9841 then .ok (Tryte.ofInt (a + off))
      else .error (.valueOutOfRange (a + off))

/-- A record resolved to an instruction (R255). -/
def resolve (table : List (List Char × Int)) (p : Pending) : Except AsmFailure Instr :=
  match p.op with
  | .rr y => .ok (p.mnemonic.instr p.x (.rr y))
  | .si n => .ok (p.mnemonic.instr p.x (.si n))
  | .wi y z => (resolveZ table z).map fun v => p.mnemonic.instr p.x (.wi y v)

/-- Trytes at rising addresses. -/
def placeTrytes : Int → List Tryte → List (Tryte × Tryte)
  | _, [] => []
  | a, t :: ts => (Tryte.ofInt a, t) :: placeTrytes (a + 1) ts

/-- Pass 2: the memory image, as (address, tryte) pairs in address order (R255). Reserved cells are not
written (R254). -/
def passTwo (table : List (List Char × Int)) :
    List Placed → Except AsmError (List (Tryte × Tryte))
  | [] => .ok []
  | p :: ps =>
    match resolve table p.record, passTwo table ps with
    | .ok i, .ok image => .ok (placeTrytes p.address (encode i) ++ image)
    | .error e, _ => .error { line := p.line, text := p.text, failure := e }
    | _, .error e => .error e

/-- What the assembler returns: the image that `load` takes, and the debug map (R250, R273): the source
line of every emitted instruction address, and the resolved symbol table (60_exceptions.md R304), every
symbol of R255 with its address and size. DESIGN CHOICE (log entry 22): a label and a hardware symbol have
no size there, and a shadowed symbol is listed too. -/
structure Assembled where
  image : List (Tryte × Tryte)
  lines : List (Int × Nat)
  symbols : List Symbol
deriving DecidableEq, Repr

/-- The assembler (R250) for a table of hardware symbols (R271). -/
def assemble (hw : List (List Char × Int)) (source : List Char) : Except AsmError Assembled :=
  match passOne 1 (splitAtChar '\n' source) Layout.start with
  | .error e => .error e
  | .ok l =>
    match passTwo (symbolTable hw l) l.records with
    | .error e => .error e
    | .ok image =>
      .ok { image := image
            lines := l.records.map fun p => (p.address, p.line)
            symbols := resolvedSymbols hw l }

/-- The assembler of the machine's tool chain, with the machine's own hardware symbols (R271). -/
def assembleForMachine (source : List Char) : Except AsmError Assembled :=
  assemble Config.hwSymbols source

end Sys2Proof.Machine
end

