-- ==== Sys2Proof/Machine/Lifecycle.lean ====
section
/-! DEFINITION. The host's side of the machine: load, reset, start, stop, host writes, watchers, setting
the pc, the run-state table and the run loop (10_state.md R33 to R36; 20_memory.md R59, R60;
41_cpu_step.md R163; 70_reset_and_hazards.md R320 to R325). The host acts between steps, never inside
one (R59). -/

namespace Sys2Proof.Machine

/-- What the host can ask of the core (00_scope.md R9). -/
inductive HostAction where
  /-- `load(image)` with the watchers the host registers on the fresh memory (20_memory.md R60). The
  image is a list of (address, tryte) pairs, a later pair for an address winning. -/
  | load (image : List (Tryte × Tryte)) (watchers : List Watcher)
  /-- `reset()`. -/
  | reset
  /-- `start`: the driver begins calling `step`. -/
  | start
  /-- `stop`: the driver stops calling `step`. -/
  | stop
  /-- `host_write(address, value)`, the address an integer as the host gives it. -/
  | write (address : Int) (value : Tryte)
  /-- `watch(address, callback)`. -/
  | watch (address : Tryte) (callback : Nat)
  /-- The pc set before starting (20_memory.md R66, 70_reset_and_hazards.md R325). -/
  | setPc (address : Tryte)
deriving DecidableEq, Repr

/-- A fresh memory holding an image, `ZERO` elsewhere (10_state.md R34). -/
def memoryOfImage (image : List (Tryte × Tryte)) : Memory :=
  image.foldl (fun m c => writeCell m (cellOf c.1) c.2) []

/-- The carry of a load or reset: unspecified, hence the next free trit (10_state.md R34, R35; log
entry 2). -/
def State.freeCarry (s : State) : State :=
  { s with carry := Config.freeTrit s.draws, draws := s.draws + 1 }

/-- `load(image)` (10_state.md R34, 70_reset_and_hazards.md R321): a fresh memory, the pc at the entry,
run state Loaded; registers and trace unchanged. -/
def State.load (s : State) (image : List (Tryte × Tryte)) (ws : List Watcher) : State :=
  { s.freeCarry with
    mem := memoryOfImage image, pc := Config.entry, watchers := ws, run := .loaded }

/-- The run state after `reset()`: only Halted changes (10_state.md R35). -/
def runAfterReset : RunState → RunState
  | .halted => .loaded
  | r => r

/-- `reset()` (10_state.md R35, 70_reset_and_hazards.md R322): registers and pc `ZERO`; memory,
watchers and trace kept. -/
def State.hostReset (s : State) : State :=
  { s.freeCarry with regs := Regs.zero, pc := Config.entry, run := runAfterReset s.run }

/-- Whether an integer is an address of the machine (20_memory.md R50, R53). -/
def isAddress (a : Int) : Bool := decide (-9841 ≤ a ∧ a ≤ 9841)

/-- What a host request does (70_reset_and_hazards.md R324, 20_memory.md R59). -/
def hostAct (h : HostAction) (s : State) : Host.Outcome State Fault Refusal :=
  match h with
  | .load image ws => .next (s.load image ws)
  | .reset => .next s.hostReset
  | .start =>
    match s.run with
    | .loaded | .stopped => .next { s with run := .running }
    | _ => .refused .hostActionIllegal
  | .stop =>
    match s.run with
    | .running => .next { s with run := .stopped }
    | _ => .refused .hostActionIllegal
  | .write a v =>
    if isAddress a then
      if s.run = .unloaded then .refused .hostActionIllegal
      else if Config.isHostCell (Tryte.ofInt a) then .next (s.memWrite (Tryte.ofInt a) v)
      else .refused .notHostCell
    else .fault .memoryBounds
  | .watch a cb =>
    if s.run = .unloaded then .refused .hostActionIllegal
    else .next { s with watchers := s.watchers ++ [{ address := a, callback := cb }] }
  | .setPc a =>
    match s.run with
    | .loaded | .stopped => .next (s.setPc a)
    | _ => .refused .hostActionIllegal

/-- One call of the driver: it calls `step` in Running and does nothing otherwise (41_cpu_step.md R162,
R163). -/
def driverStep (s : State) : Host.Outcome State Fault Refusal :=
  match s.run with
  | .running => step s
  | _ => .next s

/-- k calls of the driver. -/
def driverSteps : Nat → State → Host.Outcome State Fault Refusal
  | 0, s => .next s
  | k + 1, s =>
    match driverStep s with
    | .next t => driverSteps k t
    | .fault r => .fault r
    | .refused r => .refused r

/-- One tick of the driver: STEPS_PER_TICK calls (41_cpu_step.md R163). -/
def tick (s : State) : Host.Outcome State Fault Refusal := driverSteps Config.stepsPerTick s

/-- k ticks. -/
def ticks : Nat → State → Host.Outcome State Fault Refusal
  | 0, s => .next s
  | k + 1, s =>
    match tick s with
    | .next t => ticks k t
    | .fault r => .fault r
    | .refused r => .refused r

/-- What can happen to the machine: a step, or a host request between steps (20_memory.md R59). -/
inductive SystemEvent where
  | step
  | host (h : HostAction)
deriving DecidableEq, Repr

/-- One event. -/
def systemStep (e : SystemEvent) (s : State) : Host.Outcome State Fault Refusal :=
  match e with
  | .step => step s
  | .host h => hostAct h s

/-- A history of events, ending at the first fault or refusal. -/
def systemRun : List SystemEvent → State → Host.Outcome State Fault Refusal
  | [], s => .next s
  | e :: es, s =>
    match systemStep e s with
    | .next t => systemRun es t
    | .fault r => .fault r
    | .refused r => .refused r

end Sys2Proof.Machine
end

