-- ==== Sys2Proof/Safety.lean ====
section
/-! DEFINITION. The terms claims are written in: the invariant of the machine, what two states share,
and what an instruction leaves alone. -/

namespace Sys2Proof.Machine

/-- The fatal halt's event. -/
def Event.isHalt : Event → Bool
  | .halt _ _ _ => true
  | _ => false

/-- What holds of the machine whatever happens to it: the memory is in canonical form; a Halted core
has reported a halt (60_exceptions.md R291); an Unloaded core has no memory, no watcher and no output,
and its registers and pc are `ZERO` (10_state.md R33). -/
structure State.Inv (s : State) : Prop where
  mem_wf : s.mem.wf
  halted_reported : s.run = .halted → s.trace.any Event.isHalt = true
  unloaded_empty : s.run = .unloaded →
    s.mem = [] ∧ s.watchers = [] ∧ s.trace = [] ∧ s.regs = Regs.zero ∧ s.pc = Config.entry

/-- Every register but x reads the same in both states. -/
def otherRegsSame (x : Reg) (s t : State) : Prop := ∀ r, r ≠ x → t.readReg r = s.readReg r

/-- Every register reads the same in both states. -/
def regsSame (s t : State) : Prop := ∀ r, t.readReg r = s.readReg r

/-- Every cell reads the same in both states. -/
def memSame (s t : State) : Prop := ∀ a, t.memRead a = s.memRead a

/-- Nothing of the host's side changed: the watcher table, the run state and the model's draws. -/
def hostSideSame (s t : State) : Prop :=
  t.watchers = s.watchers ∧ t.run = s.run ∧ t.draws = s.draws

/-- The frame of an instruction that writes register x and stores nothing: every other register, every
cell, the pc, the trace and the host's side are unchanged. The two carries are not spoken of. -/
structure RegFrame (x : Reg) (s t : State) : Prop where
  regs : otherRegsSame x s t
  mem : memSame s t
  pc : t.pc = s.pc
  trace : t.trace = s.trace
  host : hostSideSame s t

/-- The frame of an instruction that writes the pc at most: every register, every cell, both carries,
the trace and the host's side are unchanged. -/
structure PcFrame (s t : State) : Prop where
  regs : regsSame s t
  mem : memSame s t
  carry : t.carry = s.carry
  ci : t.ci = s.ci
  trace : t.trace = s.trace
  host : hostSideSame s t

/-- The frame of a store to address a: every register, the pc, C and the host's side are unchanged, and
every cell but the one at a. CI and the trace are not spoken of. -/
structure StoreFrame (a : Tryte) (s t : State) : Prop where
  regs : regsSame s t
  mem : ∀ b, b ≠ a → t.memRead b = s.memRead b
  pc : t.pc = s.pc
  carry : t.carry = s.carry
  host : hostSideSame s t

/-- Two states agree on all a program can observe: registers, pc, carry, memory and run state. They
may differ in CI, the watcher table, the output trace and the model's draws. -/
structure SameToPrograms (s t : State) : Prop where
  regs : t.regs = s.regs
  pc : t.pc = s.pc
  carry : t.carry = s.carry
  mem : t.mem = s.mem
  run : t.run = s.run

/-- The register an instruction may write (41_cpu_step.md R161): x, ra for JAL, none otherwise. -/
def destination : Instr → Option Reg
  | .add x _ | .adc x _ | .mul x _ | .div x _ | .mod x _ | .neg x _ | .min x _ | .max x _
  | .xor x _ | .con x _ | .any x _ | .shr x _ | .shu x _ | .mov x _ | .lda x _ => some x
  | .ldo x (.wi _ _) => some x
  | .jal _ _ => some .ra
  | _ => none

/-- The address an instruction stores to, if it stores (20_memory.md R57; 44_move_load_store.md R212,
R214). -/
def storeAddress (i : Instr) (s : State) : Option Tryte :=
  match i with
  | .sta _ op => some (op2 op s)
  | .sto _ (.wi y z) => some (effectiveAddress (s.readReg y) z s)
  | _ => none

/-- Whether an instruction writes the carry C (10_state.md R26). -/
def writesCarry (i : Instr) (s : State) : Bool :=
  match i with
  | .add _ _ | .adc _ _ => true
  | .shr _ op => (op2 op s).toInt ≠ 0
  | _ => false

/-- Whether an instruction can write the pc itself (45_control_transfer.md). -/
def transfersControl : Instr → Bool
  | .jeq _ (.wi _ _) | .jne _ (.wi _ _) | .jgt _ (.wi _ _) | .jlt _ (.wi _ _) | .jge _ (.wi _ _)
  | .jle _ (.wi _ _) | .jmp _ _ | .jal _ _ => true
  | _ => false

/-- A core with memory attached and not halted (41_cpu_step.md R162). -/
abbrev State.steppable (s : State) : Prop := s.run = .loaded ∨ s.run = .running ∨ s.run = .stopped

end Sys2Proof.Machine
end

