-- ==== Sys2Proof/Certificates/Slice0/Obligations.lean ====
section
/-! DEFINITION. The statements for the provers. A docstring that opens with a rule of spec/ formalises that
rule whole; one that says 'from' is derived. Opcode numbers are those the rules give (log entry 10). Statements of one instruction end in the conclusion that `exec` answers a next
state, under hypotheses on the state and the operands alone. -/

open Sys2Proof Sys2Proof.Machine

/-! ### Numerals and the ALU -/

/-- From R114: the source's division algorithm gives `tryte(n)` in range and keeps the nine least
significant digits, `tryte(wrap(n))`, outside. -/
def Obligations.DecimalConversionKeepsNineDigits : Prop :=
  ∀ n : Int, tryteFromDecimal n = Tryte.ofInt n ∧
    (-9841 ≤ n → n ≤ 9841 → (tryteFromDecimal n).toInt = n)

/-- R117: the glyph string of a tryte reads back as that tryte, every string of nine glyphs is the
string of the tryte it reads as, and decimals in range round trip. -/
def Obligations.StringsAndDecimalsRoundTrip : Prop :=
  (∀ t : Tryte, stringFromTryte t = (List.range 9).map fun k => glyphOfTrit (t.digit (8 - k))) ∧
  (∀ t : Tryte, tryteFromString (stringFromTryte t) = some t) ∧
  (∀ s : List Char, s.length = 9 → (∀ c ∈ s, c = '+' ∨ c = 'o' ∨ c = '-') →
    ∃ t, tryteFromString s = some t ∧ stringFromTryte t = s) ∧
  (∀ n : Int, -9841 ≤ n → n ≤ 9841 → (tryteFromDecimal n).toInt = n)

/-- From R120: the digit-by-digit addition obeys the numeric law, for a fresh and for a chained add. -/
def Obligations.AddObeysNumericLaw : Prop :=
  ∀ (a b : Tryte) (withCarry : Bool) (C : Trit),
    let S := a.toInt + b.toInt + (if withCarry then C.toInt else 0)
    let r := aluAdd a b withCarry C
    r.1.toInt + 19683 * r.2.toInt = S ∧ -19683 ≤ S ∧ S ≤ 19683 ∧ r.1 = Tryte.ofInt S ∧
      r.2 = (if S > 9841 then Trit.pos else if S < -9841 then Trit.neg else Trit.zero)

/-- R124: the digit-by-digit comparison is the sign of the difference; against `ZERO` it is the sign. -/
def Obligations.CompareIsSignOfDifference : Prop :=
  ∀ a b : Tryte, (aluCompare a b).toInt = (a.toInt - b.toInt).sign ∧
    (aluCompare a Tryte.zero).toInt = a.toInt.sign

/-- R133: the shift and its carry are what the rule's loop of pops gives, for every count; so are the
closed forms of digits and carry the rule adds. -/
def Obligations.ShiftIsLoopOfPops : Prop :=
  ∀ (a : Tryte) (n : Int) (C : Trit),
    (aluShiftRight a n, carryShift a n C) =
        (if n > 0 then shiftLoop popLow n.toNat (a, C)
         else if n < 0 then shiftLoop popHigh (-n).toNat (a, C) else (a, C)) ∧
    (0 < n → (∀ d, d ≤ 8 → (aluShiftRight a n).digit d =
        if d + n.toNat ≤ 8 then a.digit (d + n.toNat) else .zero) ∧
      carryShift a n C = if n ≤ 9 then a.digit (n.toNat - 1) else .zero) ∧
    (n < 0 → (∀ d, d ≤ 8 → (aluShiftRight a n).digit d =
        if (-n).toNat ≤ d then a.digit (d - (-n).toNat) else .zero) ∧
      carryShift a n C = if -n ≤ 9 then a.digit (9 - (-n).toNat) else .zero) ∧
    (9 ≤ n ∨ n ≤ -9 → aluShiftRight a n = Tryte.zero)

/-- From R134: one shift right divides by 3 with the popped trit as balanced remainder; one shift left
multiplies by 3 and wraps, the lost trit in the carry. -/
def Obligations.OneShiftDividesOrMultipliesByThree : Prop :=
  ∀ (a : Tryte) (C : Trit),
    3 * (aluShiftRight a 1).toInt = a.toInt - a.d0.toInt ∧ carryShift a 1 C = a.d0 ∧
    (aluShiftRight a (-1)).toInt = wrap (3 * a.toInt) ∧ carryShift a (-1) C = a.d8 ∧
    3 * a.toInt = (aluShiftRight a (-1)).toInt + 19683 * (carryShift a (-1) C).toInt

/-- From R136: right three and left three restores digits 8..3 and zeroes digits 2, 1, 0; the carries. -/
def Obligations.ShiftRightThreeLeftThree : Prop :=
  (∀ (a : Tryte) (C : Trit) (d : Nat), d ≤ 8 →
    (aluShiftRight (aluShiftRight a 3) (-3)).digit d = (if d < 3 then .zero else a.digit d) ∧
      carryShift a 3 C = a.digit 2 ∧ carryShift (aluShiftRight a 3) (-3) (carryShift a 3 C) = .zero) ∧
  aluShiftRight (Tryte.ofInt 4321) 3 = Tryte.ofInt 160 ∧
  aluShiftRight (Tryte.ofInt 160) (-3) = Tryte.ofInt 4320

/-- From R137: the shift of trit values is its per-trit transform, or the inverse transform, applied as
often as the count says, for every count. -/
def Obligations.ValueShiftIsRepeatedTransform : Prop :=
  ∀ (a : Tryte) (n : Int), aluShiftUp a n =
    if 0 ≤ n then valueLoop upTrit n.toNat a else valueLoop downTrit (-n).toNat a

/-! ### Encoding -/

/-- Every well-formed instruction is decoded from its own trytes, whatever follows them, and exactly
its trytes are consumed (from R85, R86, R93). -/
def Obligations.DecodeInvertsEncode : Prop :=
  ∀ (i : Instr) (rest : List Tryte), i.wf = true →
    decodeStream (encode i ++ rest) = .ok (i, rest) ∧ (encode i).length = i.length

/-- R86: records and words correspond one to one. -/
def Obligations.RecordsAndWordsRoundTrip : Prop :=
  (∀ r : Record, r.valid →
    ∃ w, encodeRecord r = w :: r.z.toList ∧ decodeRecord w r.z = r) ∧
  (∀ (w : Tryte) (z : Option Tryte), encodeRecord (decodeRecord w z) = w :: z.toList)

/-- Whatever a word decodes to is a well-formed instruction and encodes to that word and its trailing
tryte: no two words stand for one instruction, ignored fields included (from R86, R92). -/
def Obligations.EncodeInvertsDecode : Prop :=
  ∀ (w : Tryte) (z : Option Tryte) (i : Instr), (z.isSome ↔ modeField w = .wi) →
    decodeWord w z = .ok i → i.wf = true ∧ encode i = w :: z.toList

/-- A word decodes to an instruction exactly when its opcode is one of the 26 assigned ones; every other
opcode is refused by its number (from R84, R89, R90). -/
def Obligations.ReservedOpcodesRefused : Prop :=
  ∀ (w : Tryte) (z : Option Tryte), (z.isSome ↔ modeField w = .wi) →
    (1 ≤ opcodeField w ∧ opcodeField w ≤ 26 → ∃ i, decodeWord w z = .ok i) ∧
    (opcodeField w < 1 ∨ 26 < opcodeField w →
      decodeWord w z = .error (.reservedOpcode (opcodeField w)))

/-- A few words written out from the spec's encodings decode to the instructions they stand for (from
R81, R89; the words of 95_test_vectors.md 2.7). -/
def Obligations.SpecWordsDecode : Prop :=
  let o := Trit.zero; let p := Trit.pos; let m := Trit.neg
  decodeWord ⟨o, o, o, p, o, m, m, p, o⟩ none = .ok (.add .r0 (.si 3)) ∧
  decodeWord ⟨p, m, m, m, m, m, o, m, m⟩ none = .ok (.mov .r1 (.rr .r0)) ∧
  decodeWord ⟨o, p, p, o, o, m, m, p, o⟩ none = .ok (.shr .r0 (.si 3)) ∧
  decodeWord ⟨p, m, o, m, p, o, o, o, m⟩ (some (Tryte.ofInt 28)) =
    .ok (.ldo .r4 (.wi .r3 (Tryte.ofInt 28))) ∧
  decodeWord ⟨p, m, p, o, p, m, o, m, p⟩ (some (Tryte.ofInt 3)) =
    .ok (.jgt .r1 (.wi .r2 (Tryte.ofInt 3))) ∧
  decodeWord ⟨p, o, o, m, p, o, o, o, o⟩ (some (Tryte.ofInt 7)) =
    .ok (.jal .r4 (.wi .r4 (Tryte.ofInt 7)))

/-! ### The step -/

/-- R151: the fetch delivers the word at the pc and the pc passes it, wrapping; and, from R153, in WI
mode, whatever the opcode, z after it with the pc past both. Nothing else but the hidden carry changes. -/
def Obligations.FetchPassesTheInstruction : Prop :=
  ∀ s : State,
    let wide := modeField (s.memRead s.pc) = .wi
    s.fetch.address = s.pc ∧ s.fetch.word = s.memRead s.pc ∧
    s.fetch.z = (if wide then some (s.memRead (Tryte.ofInt (s.pc.toInt + 1))) else none) ∧
    s.fetch.state.pc = Tryte.ofInt (s.pc.toInt + if wide then 2 else 1) ∧
    ∃ c, s.fetch.state = { s with pc := s.fetch.state.pc, ci := c }

/-- A step of a core with memory attached and not halted runs the instruction its fetched trytes decode
to, on the state the fetch leaves (from R150, R157). -/
def Obligations.StepRunsDecodedInstruction : Prop :=
  ∀ (s : State) (i : Instr), s.steppable → decodeWord s.fetch.word s.fetch.z = .ok i →
    step s = exec i s.fetch.state

/-- R158: an opcode outside the map halts the core; the pc keeps its advanced value and no register,
cell or carry changes. -/
def Obligations.UnknownOpcodeHalts : Prop :=
  ∀ s : State, s.steppable →
    (∀ m : Mnemonic, Config.opc m ≠ opcodeField (s.memRead s.pc)) →
    ∃ t, step s = .next t ∧ t.run = .halted ∧
      t.trace = s.trace ++ [.halt .unknownOpcode s.pc (s.memRead s.pc)] ∧
      t.pc = Tryte.ofInt (s.pc.toInt + if modeField (s.memRead s.pc) = .wi then 2 else 1) ∧
      regsSame s t ∧ memSame s t ∧ t.carry = s.carry ∧ t.watchers = s.watchers

/-- From R162: a step is refused while Unloaded and does nothing while Halted. -/
def Obligations.UnloadedRefusesHaltedRests : Prop :=
  (∀ s : State, s.run = .unloaded → step s = .refused .stepUnloaded) ∧
  (∀ s : State, s.run = .halted → step s = .next s)

/-- With a memory attached every step answers a next state: no instruction word, operand or address
stops the model (from R162, R294). -/
def Obligations.AttachedCoreAlwaysSteps : Prop :=
  ∀ s : State, s.run ≠ .unloaded → ∃ t, step s = .next t

/-- The invariant is kept by every step, from every state that has it: canonical memory, a Halted core
has reported its halt, an Unloaded core is empty. -/
def Obligations.StepKeepsInvariant : Prop :=
  ∀ s t : State, s.Inv → step s = .next t → t.Inv

/-- The reset state has the invariant. -/
def Obligations.ResetSatisfiesInvariant : Prop := State.reset.Inv

/-- Every history of steps and host requests keeps the invariant, from every state that has it. -/
def Obligations.HistoriesKeepInvariant : Prop :=
  ∀ (es : List SystemEvent) (s t : State), s.Inv → systemRun es s = .next t → t.Inv

/-- What one instruction can change at most: its destination register, the cell at its store address,
the carry and the pc only where it writes them; watchers and draws never; the trace only by appending
(from R161, R26, R57). -/
def Obligations.InstructionFootprint : Prop :=
  ∀ (i : Instr) (s t : State), s.mem.wf → exec i s = .next t →
    (∀ r, destination i ≠ some r → t.readReg r = s.readReg r) ∧
    (∀ a, storeAddress i s ≠ some a → t.memRead a = s.memRead a) ∧
    (writesCarry i s = false → t.carry = s.carry) ∧
    (transfersControl i = false → t.pc = s.pc) ∧
    t.watchers = s.watchers ∧ t.draws = s.draws ∧ ∃ es, t.trace = s.trace ++ es

/-- Nothing a program can observe ever depends on CI, the watcher table, the output trace or the
model's draws: two runs of any number of steps that start alike stay alike (from R27, R29, R31). -/
def Obligations.HiddenStateIsInvisible : Prop :=
  ∀ (k : Nat) (s s' t : State), SameToPrograms s s' →
    systemRun (List.replicate k .step) s = .next t →
    ∃ t', systemRun (List.replicate k .step) s' = .next t' ∧ SameToPrograms t t'

/-- A halt is precise: a step changes the run state to Halted or not at all, and one that halts reports
exactly one Halt event, with the address and the word it fetched, and leaves registers, carry and
memory as they were (from R291, R292, R295). -/
def Obligations.HaltIsPrecise : Prop :=
  ∀ s t : State, s.steppable → step s = .next t →
    (t.run = s.run ∨ t.run = .halted) ∧
    (t.run = .halted → t.regs = s.regs ∧ t.mem = s.mem ∧ t.carry = s.carry ∧
      ∃ cause, t.trace = s.trace ++ [.halt cause s.pc (s.memRead s.pc)])

/-- A store is seen by the next fetch at its address (from R64). -/
def Obligations.StoreIsSeenByNextFetch : Prop :=
  ∀ (x : Reg) (op : Operand) (s : State), s.mem.wf →
    ∃ t, exec (.sta x op) s = .next t ∧ (t.setPc (op2 op s)).fetch.word = s.readReg x

/-! ### Arithmetic -/

/-- R170: ADD, its opcode, sum, carry and frame. -/
def Obligations.AddResult : Prop :=
  Config.opc .add = 1 ∧ ∀ (x : Reg) (op : Operand) (s : State),
    let S := (s.readReg x).toInt + (op2 op s).toInt
    ∃ t, exec (.add x op) s = .next t ∧ t.readReg x = Tryte.ofInt S ∧
      t.carry = (if S > 9841 then .pos else if S < -9841 then .neg else .zero) ∧
      RegFrame x s t ∧ t.ci = s.ci

/-- R171: ADC, its opcode, sum with the old carry, new carry and frame. -/
def Obligations.AdcResult : Prop :=
  Config.opc .adc = 2 ∧ ∀ (x : Reg) (op : Operand) (s : State),
    let S := (s.readReg x).toInt + (op2 op s).toInt + s.carry.toInt
    ∃ t, exec (.adc x op) s = .next t ∧ t.readReg x = Tryte.ofInt S ∧
      t.carry = (if S > 9841 then .pos else if S < -9841 then .neg else .zero) ∧
      RegFrame x s t ∧ t.ci = s.ci

/-- From R172: MUL, its opcode, wrapped product and frame; in range the product is exact. -/
def Obligations.MulResult : Prop :=
  Config.opc .mul = 3 ∧ ∀ (x : Reg) (op : Operand) (s : State),
    let P := (s.readReg x).toInt * (op2 op s).toInt
    ∃ t, exec (.mul x op) s = .next t ∧ t.readReg x = Tryte.ofInt P ∧
      (-9841 ≤ P → P ≤ 9841 → (t.readReg x).toInt = P) ∧
      t.carry = s.carry ∧ RegFrame x s t ∧ t.ci = s.ci

/-- From R173: DIV, its opcode; by a non-zero divisor the exact quotient rounded toward zero, with its
frame; by zero the fatal halt, everything but run state and trace unchanged. -/
def Obligations.DivResult : Prop :=
  Config.opc .div = 4 ∧ ∀ (x : Reg) (op : Operand) (s : State),
    ((op2 op s).toInt ≠ 0 → ∃ t, exec (.div x op) s = .next t ∧
      (t.readReg x).toInt = (s.readReg x).toInt.tdiv (op2 op s).toInt ∧
      t.carry = s.carry ∧ RegFrame x s t ∧ t.ci = s.ci) ∧
    ((op2 op s).toInt = 0 → ∃ a w, exec (.div x op) s =
      .next { s with run := .halted, trace := s.trace ++ [.halt .divideByZero a w] })

/-- From R174: MOD, its opcode; by a non-zero divisor the remainder of the truncating division, with its
frame; by zero the fatal halt, everything but run state and trace unchanged. -/
def Obligations.ModResult : Prop :=
  Config.opc .mod = 5 ∧ ∀ (x : Reg) (op : Operand) (s : State),
    let a := (s.readReg x).toInt
    let b := (op2 op s).toInt
    (b ≠ 0 → ∃ t, exec (.mod x op) s = .next t ∧ (t.readReg x).toInt = a - b * a.tdiv b ∧
      t.carry = s.carry ∧ RegFrame x s t ∧ t.ci = s.ci) ∧
    (b = 0 → ∃ ad w, exec (.mod x op) s =
      .next { s with run := .halted, trace := s.trace ++ [.halt .divideByZero ad w] })

/-- From R174: quotient and remainder of one pair of operands fit together, the remainder smaller than
the divisor and of the dividend's sign. -/
def Obligations.QuotientAndRemainderFit : Prop :=
  ∀ (x : Reg) (op : Operand) (s : State), (op2 op s).toInt ≠ 0 →
    ∃ t u, exec (.div x op) s = .next t ∧ exec (.mod x op) s = .next u ∧
      (s.readReg x).toInt = (op2 op s).toInt * (t.readReg x).toInt + (u.readReg x).toInt ∧
      (u.readReg x).toInt.natAbs < (op2 op s).toInt.natAbs ∧
      ((u.readReg x).toInt = 0 ∨ (u.readReg x).toInt.sign = (s.readReg x).toInt.sign)

/-- A step that divides by zero halts with the address and the word of the DIV or MOD it fetched (from
R173, R174, R292; log entry 13). -/
def Obligations.DivideByZeroStepHalts : Prop :=
  ∀ (s : State) (x : Reg) (op : Operand), s.steppable →
    (decodeWord s.fetch.word s.fetch.z = .ok (.div x op) ∨
      decodeWord s.fetch.word s.fetch.z = .ok (.mod x op)) →
    (op2 op s).toInt = 0 →
    ∃ t, step s = .next t ∧ t.run = .halted ∧
      t.trace = s.trace ++ [.halt .divideByZero s.pc (s.memRead s.pc)] ∧
      regsSame s t ∧ memSame s t ∧ t.carry = s.carry

/-- R175: NEG, its opcode, digits, exact value and frame. -/
def Obligations.NegResult : Prop :=
  Config.opc .neg = 6 ∧ ∀ (x : Reg) (op : Operand) (s : State),
    ∃ t, exec (.neg x op) s = .next t ∧ (t.readReg x).toInt = -(op2 op s).toInt ∧
      (∀ d, d ≤ 8 → ((t.readReg x).digit d).toInt = -((op2 op s).digit d).toInt) ∧
      t.carry = s.carry ∧ RegFrame x s t ∧ t.ci = s.ci

/-- From R176: ADD of the low trytes, then ADC of the high ones, adds two-tryte numbers exactly, the
last carry holding what is lost. -/
def Obligations.AddThenAdcAddsTwoTryteNumbers : Prop :=
  ∀ (lo hi lo' hi' : Reg) (s : State), hi ≠ lo → hi' ≠ lo →
    ∃ t u, exec (.add lo (.rr lo')) s = .next t ∧ exec (.adc hi (.rr hi')) t = .next u ∧
      (u.readReg lo).toInt + 19683 * (u.readReg hi).toInt + 387420489 * u.carry.toInt =
        (s.readReg lo).toInt + 19683 * (s.readReg hi).toInt
          + ((s.readReg lo').toInt + 19683 * (s.readReg hi').toInt)

/-- From R177: NEG, then ADD, subtracts. -/
def Obligations.NegThenAddSubtracts : Prop :=
  ∀ (a b tmp : Reg) (s : State), tmp ≠ a →
    ∃ t u, exec (.neg tmp (.rr b)) s = .next t ∧ exec (.add a (.rr tmp)) t = .next u ∧
      u.readReg a = Tryte.ofInt ((s.readReg a).toInt - (s.readReg b).toInt)

/-! ### Tritwise logic and shifts -/

/-- R190 to R194: MIN, MAX, XOR, CON, ANY, their opcodes, every digit of the result, and their frame. -/
def Obligations.LogicResults : Prop :=
  Config.opc .min = 7 ∧ Config.opc .max = 8 ∧ Config.opc .xor = 9 ∧ Config.opc .con = 10 ∧
  Config.opc .any = 11 ∧ ∀ (x : Reg) (op : Operand) (s : State),
    let digitwise := fun (i : Instr) (f : Trit → Trit → Trit → Prop) =>
      ∃ t, exec i s = .next t ∧
        (∀ d, d ≤ 8 → f ((s.readReg x).digit d) ((op2 op s).digit d) ((t.readReg x).digit d)) ∧
        t.carry = s.carry ∧ RegFrame x s t ∧ t.ci = s.ci
    digitwise (.min x op) (fun p q r => r.toInt = min p.toInt q.toInt) ∧
    digitwise (.max x op) (fun p q r => r.toInt = max p.toInt q.toInt) ∧
    digitwise (.xor x op) (fun p q r => r.toInt = -(p.toInt * q.toInt) ∧
      r = if p = .zero ∨ q = .zero then .zero else if p = q then .neg else .pos) ∧
    digitwise (.con x op) (fun p q r => r = if p = q then p else .zero) ∧
    digitwise (.any x op) (fun p q r => r.toInt = max (-1) (min 1 (p.toInt + q.toInt)) ∧
      r = if p = .zero then q else if p.toInt = -q.toInt then .zero else p)

/-- From R195: SHR, its opcode; value and carry are what the rule's loop leaves, for every count; its
frame. -/
def Obligations.ShrResult : Prop :=
  Config.opc .shr = 12 ∧ ∀ (x : Reg) (op : Operand) (s : State),
    let n := (op2 op s).toInt
    let r := if n > 0 then shiftLoop popLow n.toNat (s.readReg x, s.carry)
      else if n < 0 then shiftLoop popHigh (-n).toNat (s.readReg x, s.carry)
      else (s.readReg x, s.carry)
    ∃ t, exec (.shr x op) s = .next t ∧ t.readReg x = r.1 ∧ t.carry = r.2 ∧
      RegFrame x s t ∧ t.ci = s.ci

/-- From R196: SHU, its opcode; shift up applied `int(op2) mod 3` times to every digit; its frame. -/
def Obligations.ShuResult : Prop :=
  Config.opc .shu = 13 ∧ ∀ (x : Reg) (op : Operand) (s : State),
    ∃ t, exec (.shu x op) s = .next t ∧
      (∀ d, d ≤ 8 → (t.readReg x).digit d =
        upTrit^[((op2 op s).toInt % 3).toNat] ((s.readReg x).digit d)) ∧
      t.carry = s.carry ∧ RegFrame x s t ∧ t.ci = s.ci

/-! ### Moves, loads, stores -/

/-- R210: MOV, its opcode, value and frame. -/
def Obligations.MovResult : Prop :=
  Config.opc .mov = 14 ∧ ∀ (x : Reg) (op : Operand) (s : State),
    ∃ t, exec (.mov x op) s = .next t ∧ t.readReg x = op2 op s ∧
      t.carry = s.carry ∧ RegFrame x s t ∧ t.ci = s.ci

/-- From R211: LDA, its opcode, the cell at op2 in every mode, and its frame. -/
def Obligations.LdaResult : Prop :=
  Config.opc .lda = 15 ∧ ∀ (x : Reg) (op : Operand) (s : State),
    ∃ t, exec (.lda x op) s = .next t ∧ t.readReg x = s.memRead (op2 op s) ∧
      t.carry = s.carry ∧ RegFrame x s t ∧ t.ci = s.ci

/-- From R212, R215, R52: STA, its opcode; the cell at op2 takes x, then the watchers of that address are
notified in registration order, then the tile policy's event where the address is in the region; its
frame. That an event names its callback is the model's choice (log entry 9). -/
def Obligations.StaResult : Prop :=
  Config.opc .sta = 16 ∧ ∀ (x : Reg) (op : Operand) (s : State), s.mem.wf →
    let a := op2 op s
    let v := s.readReg x
    ∃ t, exec (.sta x op) s = .next t ∧ t.memRead a = v ∧ StoreFrame a s t ∧ t.ci = s.ci ∧
      t.trace = s.trace
        ++ (s.watchers.filter fun w => w.address = a).map (fun w => .watchNotify w.callback v a)
        ++ (if Config.tileBase ≤ a.toInt ∧ a.toInt ≤ Config.tileBase + Config.tileSize - 1 then
              [.tileChanged (a.toInt - Config.tileBase) (Config.tileFields v).1
                (Config.tileFields v).2]
            else [])

/-- R213: LDO, its opcode; in WI mode the cell at the wrapped sum of y and z, with its frame; in the
other modes the diagnostic and no other effect. -/
def Obligations.LdoResult : Prop :=
  Config.opc .ldo = 17 ∧ ∀ (x : Reg) (op : Operand) (s : State),
    match op with
    | .wi y z => ∃ t, exec (.ldo x op) s = .next t ∧
        t.readReg x = s.memRead (Tryte.ofInt ((s.readReg y).toInt + z.toInt)) ∧
        t.carry = s.carry ∧ RegFrame x s t
    | _ => exec (.ldo x op) s = .next { s with trace := s.trace ++ [.diag .missingOperand] }

/-- From R214, R215, R52: STO, its opcode; in WI mode the cell at the wrapped sum of y and z takes x, then
watchers and tile policy as for STA, with its frame; in the other modes the diagnostic and no other
effect. That an event names its callback is the model's choice (log entry 9). -/
def Obligations.StoResult : Prop :=
  Config.opc .sto = 18 ∧ ∀ (x : Reg) (op : Operand) (s : State), s.mem.wf →
    match op with
    | .wi y z =>
      let a := Tryte.ofInt ((s.readReg y).toInt + z.toInt)
      let v := s.readReg x
      a = effectiveAddress (s.readReg y) z s ∧
      ∃ t, exec (.sto x op) s = .next t ∧ t.memRead a = v ∧ StoreFrame a s t ∧
        t.trace = s.trace
          ++ (s.watchers.filter fun w => w.address = a).map (fun w => .watchNotify w.callback v a)
          ++ (if Config.tileBase ≤ a.toInt ∧ a.toInt ≤ Config.tileBase + Config.tileSize - 1 then
                [.tileChanged (a.toInt - Config.tileBase) (Config.tileFields v).1
                  (Config.tileFields v).2]
              else [])
    | _ => exec (.sto x op) s = .next { s with trace := s.trace ++ [.diag .missingOperand] }

/-- From R52: a store writes its cell and no other, and notifies exactly the callbacks registered for that
address, in registration order, whatever the cell held before. That an event names its callback is the
model's choice (log entry 9). -/
def Obligations.MemWriteNotifiesWatchers : Prop :=
  ∀ (s : State) (a v : Tryte), s.mem.wf →
    (s.memWrite a v).memRead a = v ∧
    (∀ b, b ≠ a → (s.memWrite a v).memRead b = s.memRead b) ∧
    (s.memWrite a v).trace = s.trace
      ++ (s.watchers.filter fun w => w.address = a).map (fun w => .watchNotify w.callback v a) ∧
    ((∀ w ∈ s.watchers, w.address ≠ a) → (s.memWrite a v).trace = s.trace)

/-- From R215: whatever the region and the field layout, a store inside it triggers exactly one
tile-change event, with its offset as index, and a store outside none. -/
def Obligations.TileEventExactlyInsideRegion : Prop :=
  ∀ (base size : Int) (fields : Tryte → Tryte × Tryte) (a v : Tryte),
    (base ≤ a.toInt ∧ a.toInt < base + size →
      tileEvents base size fields a v =
        [.tileChanged (a.toInt - base) (fields v).1 (fields v).2]) ∧
    (a.toInt < base ∨ base + size ≤ a.toInt → tileEvents base size fields a v = [])

/-! ### Control transfer -/

/-- R230 to R235: the six conditional branches, their opcodes; in WI mode the registers are compared as
integers and the pc set to z when the condition holds, with their frame; in the other modes the
diagnostic and no other effect. -/
def Obligations.BranchResults : Prop :=
  Config.opc .jeq = 19 ∧ Config.opc .jne = 20 ∧ Config.opc .jgt = 21 ∧ Config.opc .jlt = 22 ∧
  Config.opc .jge = 23 ∧ Config.opc .jle = 24 ∧ ∀ (x : Reg) (op : Operand) (s : State),
    let branch := fun (i : Instr) (c : Int → Int → Prop) =>
      match op with
      | .wi y z => ∃ t, exec i s = .next t ∧
          (c (s.readReg x).toInt (s.readReg y).toInt → t.pc = z) ∧
          (¬c (s.readReg x).toInt (s.readReg y).toInt → t.pc = s.pc) ∧ PcFrame s t
      | _ => exec i s = .next { s with trace := s.trace ++ [.diag .missingOperand] }
    branch (.jeq x op) (fun a b => a = b) ∧ branch (.jne x op) (fun a b => a ≠ b) ∧
    branch (.jgt x op) (fun a b => a > b) ∧ branch (.jlt x op) (fun a b => a < b) ∧
    branch (.jge x op) (fun a b => a ≥ b) ∧ branch (.jle x op) (fun a b => a ≤ b)

/-- From R216, R239: the eight three-operand instructions without z report the diagnostic and do nothing
else. -/
def Obligations.MissingOperandReportsOnly : Prop :=
  ∀ (i : Instr) (s : State),
    i.mnemonic ∈ [.ldo, .sto, .jeq, .jne, .jgt, .jlt, .jge, .jle] → i.operand.mode ≠ .wi →
    exec i s = .next { s with trace := s.trace ++ [.diag .missingOperand] }

/-- From R236: JMP, its opcode, target and frame; the x field does not matter. -/
def Obligations.JmpResult : Prop :=
  Config.opc .jmp = 25 ∧ ∀ (x : Reg) (op : Operand) (s : State),
    ∃ t, exec (.jmp x op) s = .next t ∧ t.pc = op2 op s ∧ PcFrame s t

/-- From R237: JAL, its opcode; ra takes the advanced pc, the pc the target read before ra was written; its
frame; the x field does not matter. -/
def Obligations.JalResult : Prop :=
  Config.opc .jal = 26 ∧ ∀ (x : Reg) (op : Operand) (s : State),
    ∃ t, exec (.jal x op) s = .next t ∧ t.pc = op2 op s ∧ t.readReg .ra = s.pc ∧
      otherRegsSame .ra s t ∧ memSame s t ∧ t.carry = s.carry ∧ t.ci = s.ci ∧
      t.trace = s.trace ∧ hostSideSame s t

/-- From R237, R240: a JAL and a later `JMP ra` return to the tryte after the JAL, wherever the JAL
stood and however long it was. -/
def Obligations.JumpAndLinkThenReturn : Prop :=
  ∀ (s : State) (x x' : Reg) (op : Operand), s.steppable →
    decodeWord s.fetch.word s.fetch.z = .ok (.jal x op) →
    ∃ t u, step s = .next t ∧ t.pc = op2 op s ∧ exec (.jmp x' (.rr .ra)) t = .next u ∧
      u.pc = Tryte.ofInt (s.pc.toInt + (Instr.jal x op).length)

/-- From R241: `MOV t, 0` then `ADC t, 0` copies C into t and clears C. -/
def Obligations.CarryCopiesIntoRegister : Prop :=
  ∀ (x : Reg) (s : State),
    ∃ t u, exec (.mov x (.si 0)) s = .next t ∧ exec (.adc x (.si 0)) t = .next u ∧
      (u.readReg x).toInt = s.carry.toInt ∧ u.carry = .zero

/-! ### Reset, lifecycle, host -/

/-- The state after construction: registers, pc and every cell `ZERO`, Unloaded, no watcher, no
output (from R33; the carry, which the rule leaves unspecified, is not spoken of). -/
def Obligations.ConstructionState : Prop :=
  (∀ r, State.reset.readReg r = Tryte.zero) ∧ State.reset.pc = Tryte.zero ∧
  (∀ a, State.reset.memRead a = Tryte.zero) ∧ State.reset.run = .unloaded ∧
  State.reset.watchers = [] ∧ State.reset.trace = []

/-- From R34: a load puts every tryte of the image (no address twice) at its address and `ZERO`
elsewhere, whatever was there before; pc at the entry; registers and trace unchanged. That the image is
a list of pairs is the model's choice (log entry 6). -/
def Obligations.LoadEffects : Prop :=
  ∀ (s : State) (image : List (Tryte × Tryte)) (ws : List Watcher),
    (image.map Prod.fst).Nodup →
    ∃ t, hostAct (.load image ws) s = .next t ∧
      (∀ c ∈ image, t.memRead c.1 = c.2) ∧
      (∀ a, a ∉ image.map Prod.fst → t.memRead a = Tryte.zero) ∧
      t.pc = Tryte.zero ∧ t.run = .loaded ∧ regsSame s t ∧ t.watchers = ws ∧ t.trace = s.trace

/-- From R35: what `reset()` zeroes and what it keeps; the carry is not spoken of. -/
def Obligations.ResetEffects : Prop :=
  ∀ s : State, ∃ t, hostAct .reset s = .next t ∧
    (∀ r, t.readReg r = Tryte.zero) ∧ t.pc = Tryte.zero ∧ memSame s t ∧
    t.watchers = s.watchers ∧ t.trace = s.trace ∧
    t.run = (if s.run = .halted then .loaded else s.run)

/-- From R324: the rows of the run-state table, with the state each leaves. -/
def Obligations.RunStateTable : Prop :=
  ∀ s : State,
    (∀ image ws, ∃ t, hostAct (.load image ws) s = .next t ∧ t.run = .loaded) ∧
    (s.run = .unloaded → (∃ t, hostAct .reset s = .next t ∧ t.run = .unloaded) ∧
      step s = .refused .stepUnloaded) ∧
    (s.run = .loaded ∨ s.run = .stopped →
      hostAct .start s = .next { s with run := .running }) ∧
    (s.run = .running → hostAct .stop s = .next { s with run := .stopped }) ∧
    (s.steppable → (∃ t, hostAct .reset s = .next t ∧ t.run = s.run) ∧
      ∃ t, step s = .next t ∧ (t.run = s.run ∨ t.run = .halted)) ∧
    (s.run = .halted → step s = .next s ∧ ∃ t, hostAct .reset s = .next t ∧ t.run = .loaded)

/-- From R53, R59: a host write to a host cell is a store with its notifications and no tile event; a
host write at an integer that is no address is the bounds violation, a fault by the model's choice (log
entry 15). That an event names its callback is the model's choice (log entry 9). CI is not spoken of. -/
def Obligations.HostWriteEffects : Prop :=
  (∀ (s : State) (a v : Tryte), s.mem.wf → s.run ≠ .unloaded → Config.isHostCell a = true →
    ∃ t, hostAct (.write a.toInt v) s = .next t ∧ t.memRead a = v ∧ StoreFrame a s t ∧
      t.trace = s.trace
        ++ (s.watchers.filter fun w => w.address = a).map (fun w => .watchNotify w.callback v a)) ∧
  (∀ (s : State) (n : Int) (v : Tryte), n < -9841 ∨ 9841 < n →
    hostAct (.write n v) s = .fault .memoryBounds)

/-- From R325: after load and reset the first step fetches the word the image has at address 0, with
every register `ZERO`. -/
def Obligations.FirstStepFetchesAddressZero : Prop :=
  ∀ (s : State) (image : List (Tryte × Tryte)) (ws : List Watcher) (w : Tryte),
    (image.map Prod.fst).Nodup → (Tryte.zero, w) ∈ image →
    ∃ t, systemRun [.host (.load image ws), .host .reset] s = .next t ∧ t.steppable ∧
      t.fetch.address = Tryte.zero ∧ t.fetch.word = w ∧ ∀ r, t.readReg r = Tryte.zero

/-- From R163: grouping has no effect: k ticks are k times STEPS_PER_TICK calls of the driver
(log entry 20). -/
def Obligations.TicksAreConsecutiveSteps : Prop :=
  ∀ (k : Nat) (s : State), ticks k s = driverSteps (k * Config.stepsPerTick) s

/-! ### The assembler -/

/-- From R260: whichever form the chooser takes for a literal, the assembled instruction is well formed
and its second operand has the literal's value. -/
def Obligations.ChooserKeepsLiteralValue : Prop :=
  ∀ (m : Mnemonic) (x : Reg) (n : Int) (table : List (List Char × Int)) (s : State),
    -9841 ≤ n → n ≤ 9841 →
    ∃ i, resolve table { mnemonic := m, x := x, op := choose (.literal n) } = .ok i ∧
      i.wf = true ∧ (op2 i.operand s).toInt = n

/-- From R268, R269, R270: PSH and then POP of one register puts register and stack pointer back, for
every register but sp itself. -/
def Obligations.PushThenPopRestores : Prop :=
  ∀ (r : Reg) (s : State), s.mem.wf → r ≠ .sp →
    ∃ t u v w, exec (.sta r (.rr .sp)) s = .next t ∧ exec (.add .sp (.si 1)) t = .next u ∧
      exec (.add .sp (.si (-1))) u = .next v ∧ exec (.lda r (.rr .sp)) v = .next w ∧
      (∀ table, (pushOne r).map (resolve table) = [.ok (.sta r (.rr .sp)), .ok (.add .sp (.si 1))]) ∧
      (∀ table, (popOne r).map (resolve table) =
        [.ok (.add .sp (.si (-1))), .ok (.lda r (.rr .sp))]) ∧
      (∀ q, w.readReg q = s.readReg q)
end

