-- ==== Sys2Proof/Laws/Word.lean ====
section
/-! SUPPORT. The numeral laws of 00_scope.md R14: `int`, `wrap` and `tryte` fit together. -/

namespace Sys2Proof

theorem Trit.toInt_bounds (t : Trit) : -1 ≤ t.toInt ∧ t.toInt ≤ 1 := by
  cases t <;> simp [Trit.toInt]

theorem Trit.toInt_inj {a b : Trit} (h : a.toInt = b.toInt) : a = b := by
  cases a <;> cases b <;> simp_all [Trit.toInt]

theorem Trit.toInt_ofResidue (k : Nat) : (Trit.ofResidue k).toInt = (k % 3 : Nat) - 1 := by
  have h : k % 3 < 3 := Nat.mod_lt _ (by decide)
  unfold Trit.ofResidue
  split
  · simp [Trit.toInt, *]
  · split
    · simp [Trit.toInt, *]
    · have h2 : k % 3 = 2 := by omega
      simp [Trit.toInt, h2]

/-- The bounds of every tryte (R10). -/
theorem Tryte.toInt_bounds (w : Tryte) : -9841 ≤ w.toInt ∧ w.toInt ≤ 9841 := by
  have := w.d0.toInt_bounds; have := w.d1.toInt_bounds; have := w.d2.toInt_bounds
  have := w.d3.toInt_bounds; have := w.d4.toInt_bounds; have := w.d5.toInt_bounds
  have := w.d6.toInt_bounds; have := w.d7.toInt_bounds; have := w.d8.toInt_bounds
  unfold Tryte.toInt
  omega

/-- One digit split off: a balanced digit and the rest are determined by their sum. -/
theorem digit_split {m n : Int} {a b : Trit} (h : 3 * m + a.toInt = 3 * n + b.toInt) :
    m = n ∧ a = b := by
  have ha := a.toInt_bounds
  have hb := b.toInt_bounds
  have he : a.toInt = b.toInt := by omega
  exact ⟨by omega, Trit.toInt_inj he⟩

/-- The value in Horner form. -/
theorem Tryte.toInt_horner (w : Tryte) :
    w.toInt = 3 * (3 * (3 * (3 * (3 * (3 * (3 * (3 * w.d8.toInt + w.d7.toInt) + w.d6.toInt)
      + w.d5.toInt) + w.d4.toInt) + w.d3.toInt) + w.d2.toInt) + w.d1.toInt) + w.d0.toInt := by
  unfold Tryte.toInt; omega

/-- Every integer in range has exactly one tryte (40_trit_tryte_alu.md R111). -/
theorem Tryte.toInt_inj {a b : Tryte} (h : a.toInt = b.toInt) : a = b := by
  rw [a.toInt_horner, b.toInt_horner] at h
  obtain ⟨h, h0⟩ := digit_split h
  obtain ⟨h, h1⟩ := digit_split h
  obtain ⟨h, h2⟩ := digit_split h
  obtain ⟨h, h3⟩ := digit_split h
  obtain ⟨h, h4⟩ := digit_split h
  obtain ⟨h, h5⟩ := digit_split h
  obtain ⟨h, h6⟩ := digit_split h
  obtain ⟨h, h7⟩ := digit_split h
  have h8 := Trit.toInt_inj h
  cases a; cases b; simp_all

theorem Tryte.toInt_eq_iff {a b : Tryte} : a.toInt = b.toInt ↔ a = b :=
  ⟨Tryte.toInt_inj, fun h => h ▸ rfl⟩

/-- `wrap(n)` is in range. -/
theorem wrap_bounds (n : Int) : -9841 ≤ wrap n ∧ wrap n ≤ 9841 := by
  unfold wrap; omega

/-- `wrap(n)` is congruent to n. -/
theorem wrap_congr (n : Int) : ∃ k : Int, n = wrap n + 19683 * k :=
  ⟨(n + 9841) / 19683, by unfold wrap; omega⟩

/-- The wrapped value is the only value in range congruent to n. -/
theorem wrap_unique {n m k : Int} (h : n = m + 19683 * k) (hm : -9841 ≤ m ∧ m ≤ 9841) :
    wrap n = m := by
  unfold wrap; omega

@[simp] theorem wrap_of_range {n : Int} (h : -9841 ≤ n ∧ n ≤ 9841) : wrap n = n := by
  unfold wrap; omega

@[simp] theorem wrap_toInt (w : Tryte) : wrap w.toInt = w.toInt := wrap_of_range w.toInt_bounds

/-- One base-3 digit of a number, taken as a balanced digit. -/
theorem Trit.toInt_ofResidue_step (k d : Nat) :
    (Trit.ofResidue (k / 3 ^ d)).toInt
      = ((k / 3 ^ d : Nat) : Int) - 3 * ((k / 3 ^ (d + 1) : Nat) : Int) - 1 := by
  have h : k / 3 ^ (d + 1) = k / 3 ^ d / 3 := by rw [Nat.pow_succ, Nat.div_div_eq_div_mul]
  rw [Trit.toInt_ofResidue, h]
  omega

/-- `int(tryte(wrap(n))) = wrap(n)` (R14). -/
@[simp] theorem Tryte.toInt_ofInt (n : Int) : (Tryte.ofInt n).toInt = wrap n := by
  obtain ⟨k, hk⟩ : ∃ k : Nat, (n + 9841) % 19683 = k := ⟨((n + 9841) % 19683).toNat, by omega⟩
  have htop : k / 3 ^ 9 = 0 := Nat.div_eq_of_lt (by omega)
  simp only [Tryte.ofInt, Tryte.ofDigits, Tryte.toInt, wrap, hk, Int.toNat_natCast,
    Trit.toInt_ofResidue_step, Nat.reduceAdd]
  simp only [htop, pow_zero, Nat.div_one]
  push_cast
  ring

/-- In range, `int(tryte(n)) = n` (R14). -/
theorem Tryte.toInt_ofInt_of_range {n : Int} (h : -9841 ≤ n ∧ n ≤ 9841) :
    (Tryte.ofInt n).toInt = n := by
  rw [Tryte.toInt_ofInt, wrap_of_range h]

/-- `tryte(int(w)) = w` (R14). -/
@[simp] theorem Tryte.ofInt_toInt (w : Tryte) : Tryte.ofInt w.toInt = w :=
  Tryte.toInt_inj (by simp)

/-- A tryte is the tryte of an integer exactly when the integer wraps to its value. -/
theorem Tryte.eq_ofInt_iff {w : Tryte} {n : Int} : w = Tryte.ofInt n ↔ w.toInt = wrap n := by
  rw [← Tryte.toInt_eq_iff, Tryte.toInt_ofInt]

/-- `tryte(wrap(n))` depends on `wrap(n)` alone. -/
theorem Tryte.ofInt_wrap (n : Int) : Tryte.ofInt (wrap n) = Tryte.ofInt n :=
  Tryte.toInt_inj (by rw [Tryte.toInt_ofInt, Tryte.toInt_ofInt, wrap_of_range (wrap_bounds n)])

@[simp] theorem Tryte.toInt_zero : Tryte.zero.toInt = 0 := by decide

theorem Tryte.toInt_eq_zero {w : Tryte} : w.toInt = 0 ↔ w = Tryte.zero := by
  rw [← Tryte.toInt_eq_iff, Tryte.toInt_zero]

/-- Two trytes with the same nine digits are the same. -/
theorem Tryte.ext_digit {a b : Tryte} (h : ∀ d, d ≤ 8 → a.digit d = b.digit d) : a = b := by
  have h0 := h 0 (by decide); have h1 := h 1 (by decide); have h2 := h 2 (by decide)
  have h3 := h 3 (by decide); have h4 := h 4 (by decide); have h5 := h 5 (by decide)
  have h6 := h 6 (by decide); have h7 := h 7 (by decide); have h8 := h 8 (by decide)
  cases a; cases b
  simp_all [Tryte.digit]

/-- An index of a tryte is one of nine. -/
theorem digit_cases {d : Nat} (h : d ≤ 8) :
    d = 0 ∨ d = 1 ∨ d = 2 ∨ d = 3 ∨ d = 4 ∨ d = 5 ∨ d = 6 ∨ d = 7 ∨ d = 8 := by omega

theorem Tryte.digit_ofDigits (f : Nat → Trit) {d : Nat} (h : d ≤ 8) :
    (Tryte.ofDigits f).digit d = f d := by
  rcases digit_cases h with h | h | h | h | h | h | h | h | h <;> subst h <;> rfl

theorem Tryte.digit_map (f : Trit → Trit) (a : Tryte) {d : Nat} (h : d ≤ 8) :
    (a.map f).digit d = f (a.digit d) := by
  rcases digit_cases h with h | h | h | h | h | h | h | h | h <;> subst h <;> rfl

theorem Tryte.digit_map2 (f : Trit → Trit → Trit) (a b : Tryte) {d : Nat} (h : d ≤ 8) :
    (a.map2 f b).digit d = f (a.digit d) (b.digit d) := by
  rcases digit_cases h with h | h | h | h | h | h | h | h | h <;> subst h <;> rfl

theorem Tryte.digit_beyond (a : Tryte) {d : Nat} (h : 9 ≤ d) : a.digit d = .zero := by
  obtain ⟨k, rfl⟩ : ∃ k, d = k + 9 := ⟨d - 9, by omega⟩
  rfl

end Sys2Proof
end

