-- ==== Sys2Proof/Laws/Alu.lean ====
section
/-! SUPPORT. What one digit or one turn of each ALU function does. -/

namespace Sys2Proof.Machine

/-- One digit of an addition: the sum is the result trit plus three times the carry (R119, R120). -/
theorem addDigit_law (a b c : Trit) :
    (addDigit a b c).1.toInt + 3 * (addDigit a b c).2.toInt = a.toInt + b.toInt + c.toInt := by
  cases a <;> cases b <;> cases c <;> decide

theorem negTrit_toInt (t : Trit) : (negTrit t).toInt = -t.toInt := by cases t <;> decide

theorem minTrit_toInt (a b : Trit) : (minTrit a b).toInt = min a.toInt b.toInt := by
  cases a <;> cases b <;> decide

theorem maxTrit_toInt (a b : Trit) : (maxTrit a b).toInt = max a.toInt b.toInt := by
  cases a <;> cases b <;> decide

theorem xorTrit_toInt (a b : Trit) : (xorTrit a b).toInt = -(a.toInt * b.toInt) := by
  cases a <;> cases b <;> decide

theorem acceptTrit_toInt (a b : Trit) :
    (acceptTrit a b).toInt = max (-1) (min 1 (a.toInt + b.toInt)) := by
  cases a <;> cases b <;> decide

theorem upTrit_toInt (t : Trit) : (upTrit t).toInt = (t.toInt + 2) % 3 - 1 := by
  cases t <;> decide

@[simp] theorem downTrit_upTrit (t : Trit) : downTrit (upTrit t) = t := by cases t <;> rfl
@[simp] theorem upTrit_downTrit (t : Trit) : upTrit (downTrit t) = t := by cases t <;> rfl

theorem Tryte.map_map (f g : Trit → Trit) (a : Tryte) :
    (a.map f).map g = a.map fun t => g (f t) := rfl

theorem Tryte.map_id' (a : Tryte) : (a.map fun t => t) = a := rfl

/-- A digit of a right shift. -/
theorem digit_aluShiftRight_nonneg (a : Tryte) {n : Int} (h : 0 ≤ n) {d : Nat} (hd : d ≤ 8) :
    (aluShiftRight a n).digit d = a.digit (d + n.toNat) := by
  rw [aluShiftRight, if_pos h, Tryte.digit_ofDigits _ hd]

/-- A digit of a left shift. -/
theorem digit_aluShiftRight_neg (a : Tryte) {n : Int} (h : n < 0) {d : Nat} (hd : d ≤ 8) :
    (aluShiftRight a n).digit d = if (-n).toNat ≤ d then a.digit (d - (-n).toNat) else .zero := by
  rw [aluShiftRight, if_neg (by omega), Tryte.digit_ofDigits _ hd]

/-- A digit after one turn toward the least significant end. -/
theorem digit_popLow (a : Tryte) {d : Nat} (hd : d ≤ 8) :
    (popLow a).1.digit d = a.digit (d + 1) := by
  rcases digit_cases hd with h | h | h | h | h | h | h | h | h <;> subst h <;> rfl

/-- A digit after one turn toward the most significant end. -/
theorem digit_popHigh (a : Tryte) {d : Nat} (hd : d ≤ 8) :
    (popHigh a).1.digit d = if d = 0 then .zero else a.digit (d - 1) := by
  rcases digit_cases hd with h | h | h | h | h | h | h | h | h <;> subst h <;> rfl

theorem popLow_carry (a : Tryte) : (popLow a).2 = a.digit 0 := rfl
theorem popHigh_carry (a : Tryte) : (popHigh a).2 = a.digit 8 := rfl

/-- The carry of a sum is the multiple of 19683 the wrap drops (R120). -/
theorem carryOfSum_law {S : Int} (h : -29523 < S ∧ S ≤ 29523) :
    wrap S + 19683 * (carryOfSum S).toInt = S := by
  unfold carryOfSum wrap
  split
  · simp only [Trit.toInt]; omega
  · split <;> simp only [Trit.toInt] <;> omega

end Sys2Proof.Machine
end

