-- ==== Sys2Proof/Laws/Assembler.lean ====
section
/-! SUPPORT. The hardware symbols and the literals of the assembler. -/

namespace Sys2Proof.Machine

/-- Every hardware symbol is keyed by a name with the `$` sigil (46_assembler.md R271). -/
theorem hwSymbols_sigil {p : List Char × Int} (h : p ∈ Config.hwSymbols) :
    ∃ name, p.1 = '$' :: name := by
  obtain ⟨q, -, rfl⟩ := List.mem_map.1 h
  exact ⟨q.1, rfl⟩

/-- The symbols hold the addresses and the size that the CPU itself uses (20_memory.md R67). -/
theorem hwSymbols_of_machine :
    ('$' :: Config.mouseXName, Config.mouseX.toInt) ∈ Config.hwSymbols ∧
    ('$' :: Config.mouseYName, Config.mouseY.toInt) ∈ Config.hwSymbols ∧
    ('$' :: Config.mouseButtonsName, Config.mouseButtons.toInt) ∈ Config.hwSymbols ∧
    ('$' :: Config.tileBaseName, Config.tileBase) ∈ Config.hwSymbols ∧
    ('$' :: Config.tileSizeName, Config.tileSize) ∈ Config.hwSymbols := by
  simp [Config.hwSymbols]

/-- The three mouse cells are host cells (20_memory.md R59). -/
theorem mouse_cells_are_host_cells :
    Config.isHostCell Config.mouseX = true ∧ Config.isHostCell Config.mouseY = true ∧
      Config.isHostCell Config.mouseButtons = true := by
  simp [Config.isHostCell]

/-- A literal that parses is the value of the tryte its text reads as (46_assembler.md R258). -/
theorem parseLiteral_ok {e : AsmFailure} {s : List Char} {n : Int}
    (h : parseLiteral e s = .ok n) : ∃ v, tryteFromString s = some v ∧ n = v.toInt := by
  unfold parseLiteral at h
  split at h
  · rename_i v hv
    exact ⟨v, hv, by simpa using h.symm⟩
  · cases h
  · cases h

/-- The table of pass 2 begins with the hardware symbols, which later entries shadow (R255). -/
theorem symbolTable_eq (hw : List (List Char × Int)) (l : Layout) :
    symbolTable hw l = hw ++ (l.labels ++ l.data).map fun s => (s.name, s.address) := by
  simp [symbolTable, resolvedSymbols, Function.comp_def]

/-- What an assembly that succeeds returns: the image of pass 2 and the debug map of pass 1's layout, its
symbol table whole (R250, R273). -/
theorem assemble_ok {hw : List (List Char × Int)} {source : List Char} {a : Assembled}
    (h : assemble hw source = .ok a) :
    ∃ l, passOne 1 (splitAtChar '\n' source) Layout.start = .ok l ∧
      passTwo (symbolTable hw l) l.records = .ok a.image ∧
      a.lines = l.records.map (fun p => (p.address, p.line)) ∧
      a.symbols = resolvedSymbols hw l := by
  unfold assemble at h
  split at h
  · cases h
  · rename_i l hl
    split at h
    · cases h
    · rename_i image hi
      cases h
      exact ⟨l, hl, hi, rfl, rfl⟩

end Sys2Proof.Machine
end

