-- ==== Sys2Proof/Laws/Decode.lean ====
section
/-! SUPPORT. The codec's parts: fields of a word, registers and selectors, the opcode map. -/

namespace Sys2Proof

/-- A field in range, as inequalities. -/
theorem inField_iff {b n : Int} : inField b n = true ↔ -b ≤ n ∧ n ≤ b := by
  simp [inField]

theorem opcodeField_bounds (w : Tryte) : inField 40 (opcodeField w) = true := by
  have := w.d8.toInt_bounds; have := w.d7.toInt_bounds
  have := w.d6.toInt_bounds; have := w.d5.toInt_bounds
  rw [inField_iff]; unfold opcodeField; omega

theorem xField_bounds (w : Tryte) : inField 4 (xField w) = true := by
  have := w.d3.toInt_bounds; have := w.d2.toInt_bounds
  rw [inField_iff]; unfold xField; omega

theorem yField_bounds (w : Tryte) : inField 4 (yField w) = true := by
  have := w.d1.toInt_bounds; have := w.d0.toInt_bounds
  rw [inField_iff]; unfold yField; omega

theorem Mode.toInt_bounds (m : Mode) : -1 ≤ m.toInt ∧ m.toInt ≤ 1 := by
  cases m <;> simp [Mode.toInt]

theorem Mode.toInt_inj {m n : Mode} (h : m.toInt = n.toInt) : m = n := by
  cases m <;> cases n <;> simp_all [Mode.toInt]

theorem modeField_toInt (w : Tryte) : (modeField w).toInt = w.d4.toInt := by
  unfold modeField; cases w.d4 <;> rfl

/-- `int(word) = 243*opcode + 81*mode + 9*xsel + ysel` (30_encoding.md R81). -/
theorem toInt_eq_fields (w : Tryte) :
    w.toInt = 243 * opcodeField w + 81 * (modeField w).toInt + 9 * xField w + yField w := by
  rw [modeField_toInt]
  unfold Tryte.toInt opcodeField xField yField
  omega

/-- Fields in range determine the word and are read back from it (30_encoding.md R85, R86). -/
theorem fields_ofInt {o x y : Int} {m : Mode} (ho : inField 40 o = true) (hx : inField 4 x = true)
    (hy : inField 4 y = true) :
    let w := Tryte.ofInt (243 * o + 81 * m.toInt + 9 * x + y)
    opcodeField w = o ∧ modeField w = m ∧ xField w = x ∧ yField w = y := by
  intro w
  have hm := m.toInt_bounds
  have e := toInt_eq_fields w
  rw [inField_iff] at ho hx hy
  rw [Tryte.toInt_ofInt_of_range (by omega)] at e
  have := inField_iff.1 (opcodeField_bounds w)
  have := inField_iff.1 (xField_bounds w)
  have := inField_iff.1 (yField_bounds w)
  have := (modeField w).toInt_bounds
  have hyy : yField w = y := by omega
  have hxx : xField w = x := by omega
  have hmm : (modeField w).toInt = m.toInt := by omega
  exact ⟨by omega, Mode.toInt_inj hmm, hxx, hyy⟩

/-- The selector of every register is in range (10_state.md R21). -/
theorem selectorOfReg_bounds (r : Reg) : inField 4 (selectorOfReg r) = true := by cases r <;> decide

/-- Every register is found again from its selector (30_encoding.md R87). -/
@[simp] theorem regOfSelector_selectorOfReg (r : Reg) :
    regOfSelector (selectorOfReg r) = .ok r := by cases r <;> rfl

/-- Every selector in range names a register, whose selector it is (30_encoding.md R87). -/
theorem regOfSelector_ok {n : Int} (h : inField 4 n = true) :
    ∃ r, regOfSelector n = .ok r ∧ selectorOfReg r = n := by
  have h := inField_iff.1 h
  have : n = -4 ∨ n = -3 ∨ n = -2 ∨ n = -1 ∨ n = 0 ∨ n = 1 ∨ n = 2 ∨ n = 3 ∨ n = 4 := by omega
  rcases this with e | e | e | e | e | e | e | e | e <;> subst e
  exacts [⟨.r0, rfl, rfl⟩, ⟨.r1, rfl, rfl⟩, ⟨.r2, rfl, rfl⟩, ⟨.r3, rfl, rfl⟩, ⟨.r4, rfl, rfl⟩,
    ⟨.r5, rfl, rfl⟩, ⟨.r6, rfl, rfl⟩, ⟨.ra, rfl, rfl⟩, ⟨.sp, rfl, rfl⟩]

/-- A selector out of range names none. -/
theorem regOfSelector_error {n : Int} (h : inField 4 n = false) :
    regOfSelector n = .error (.selectorOutOfRange n) := by
  have hn : regOfIndex (n + Config.bias) = none := by
    have h : ¬(-4 ≤ n ∧ n ≤ 4) := fun hn => by rw [inField_iff.2 hn] at h; cases h
    simp only [regOfIndex, List.find?_eq_none, Config.bias]
    intro r hr
    have hi : (r.index : Int) ≤ 8 ∧ 0 ≤ (r.index : Int) := by cases r <;> decide
    simp only [beq_iff_eq]
    omega
  simp [regOfSelector, hn]

/-- Every mnemonic's opcode is assigned to it and to no other (30_encoding.md R89). -/
@[simp] theorem mnemonicOfOpcode_opc (m : Mnemonic) : mnemonicOfOpcode (Config.opc m) = some m := by
  cases m <;> rfl

theorem opc_bounds (m : Mnemonic) : inField 40 (Config.opc m) = true := by cases m <;> decide

theorem opc_of_mnemonicOfOpcode {n : Int} {m : Mnemonic} (h : mnemonicOfOpcode n = some m) :
    Config.opc m = n := by
  have := List.find?_some h
  simpa using this

@[simp] theorem parts_instr (m : Mnemonic) (x : Reg) (op : Operand) :
    (m.instr x op).parts = (m, x, op) := by cases m <;> rfl

@[simp] theorem mnemonic_instr (m : Mnemonic) (x : Reg) (op : Operand) :
    (m.instr x op).mnemonic = m := by cases m <;> rfl

@[simp] theorem x_instr (m : Mnemonic) (x : Reg) (op : Operand) : (m.instr x op).x = x := by
  cases m <;> rfl

@[simp] theorem operand_instr (m : Mnemonic) (x : Reg) (op : Operand) :
    (m.instr x op).operand = op := by cases m <;> rfl

/-- An instruction is its mnemonic with its two parts. -/
theorem instr_of_parts (i : Instr) : i.mnemonic.instr i.x i.operand = i := by cases i <;> rfl

theorem yselOfOperand_bounds {op : Operand} (h : op.wf = true) :
    inField 4 (yselOfOperand op) = true := by
  cases op with
  | rr y => exact selectorOfReg_bounds y
  | si n => exact h
  | wi y z => exact selectorOfReg_bounds y

/-- The record of a well-formed instruction is valid (30_encoding.md R85). -/
theorem recordOfInstr_valid {i : Instr} (h : i.wf = true) : (recordOfInstr i).valid := by
  refine ⟨opc_bounds _, selectorOfReg_bounds _, yselOfOperand_bounds h, ?_⟩
  simp only [recordOfInstr]
  cases i.operand <;> simp [zOfOperand, Operand.mode]

/-- An instruction's trytes: its word, then z in WI mode. -/
theorem encode_eq (i : Instr) : encode i = encodeWord i :: (zOfOperand i.operand).toList := rfl

/-- Every word with its trailing tryte there exactly in WI mode decodes to the instruction its opcode
names, or is refused for its opcode alone (30_encoding.md R84, R90). -/
theorem decodeWord_cases {w : Tryte} {z : Option Tryte} (hz : z.isSome ↔ modeField w = .wi) :
    (∃ m x op, mnemonicOfOpcode (opcodeField w) = some m ∧ regOfSelector (xField w) = .ok x ∧
      operandOfRecord (decodeRecord w z) = .ok op ∧ decodeWord w z = .ok (m.instr x op)) ∨
    (mnemonicOfOpcode (opcodeField w) = none ∧
      decodeWord w z = .error (.reservedOpcode (opcodeField w))) := by
  obtain ⟨x, hx, -⟩ := regOfSelector_ok (xField_bounds w)
  obtain ⟨y, hy, -⟩ := regOfSelector_ok (yField_bounds w)
  obtain ⟨op, hop⟩ : ∃ op, operandOfRecord (decodeRecord w z) = .ok op := by
    simp only [operandOfRecord, decodeRecord]
    cases hm : modeField w <;> cases z <;> simp_all [Except.map, yField_bounds]
  cases hm : mnemonicOfOpcode (opcodeField w) with
  | none => exact .inr ⟨rfl, by simp [decodeWord, instrOfRecord, decodeRecord, hm]⟩
  | some m =>
    refine .inl ⟨m, x, op, rfl, hx, hop, ?_⟩
    have hx' : regOfSelector (decodeRecord w z).xsel = .ok x := hx
    have hm' : mnemonicOfOpcode (decodeRecord w z).opcode = some m := hm
    simp only [decodeWord, instrOfRecord, hm', hx', hop]

end Sys2Proof
end

