-- ==== Sys2Proof/Laws/State.lean ====
section
/-! SUPPORT. One lemma for each field and each state update, so that no proof unfolds an update. -/

namespace Sys2Proof.Machine

/-! ### writeReg -/

@[simp] theorem State.writeReg_regs (s : State) (r : Reg) (v : Tryte) :
    (s.writeReg r v).regs = s.regs.set r v := rfl
@[simp] theorem State.writeReg_pc (s : State) (r : Reg) (v : Tryte) :
    (s.writeReg r v).pc = s.pc := rfl
@[simp] theorem State.writeReg_carry (s : State) (r : Reg) (v : Tryte) :
    (s.writeReg r v).carry = s.carry := rfl
@[simp] theorem State.writeReg_ci (s : State) (r : Reg) (v : Tryte) :
    (s.writeReg r v).ci = s.ci := rfl
@[simp] theorem State.writeReg_mem (s : State) (r : Reg) (v : Tryte) :
    (s.writeReg r v).mem = s.mem := rfl
@[simp] theorem State.writeReg_watchers (s : State) (r : Reg) (v : Tryte) :
    (s.writeReg r v).watchers = s.watchers := rfl
@[simp] theorem State.writeReg_run (s : State) (r : Reg) (v : Tryte) :
    (s.writeReg r v).run = s.run := rfl
@[simp] theorem State.writeReg_trace (s : State) (r : Reg) (v : Tryte) :
    (s.writeReg r v).trace = s.trace := rfl
@[simp] theorem State.writeReg_draws (s : State) (r : Reg) (v : Tryte) :
    (s.writeReg r v).draws = s.draws := rfl

/-! ### setCarry -/

@[simp] theorem State.setCarry_regs (s : State) (c : Trit) :
    (s.setCarry c).regs = s.regs := rfl
@[simp] theorem State.setCarry_pc (s : State) (c : Trit) :
    (s.setCarry c).pc = s.pc := rfl
@[simp] theorem State.setCarry_carry (s : State) (c : Trit) :
    (s.setCarry c).carry = c := rfl
@[simp] theorem State.setCarry_ci (s : State) (c : Trit) :
    (s.setCarry c).ci = s.ci := rfl
@[simp] theorem State.setCarry_mem (s : State) (c : Trit) :
    (s.setCarry c).mem = s.mem := rfl
@[simp] theorem State.setCarry_watchers (s : State) (c : Trit) :
    (s.setCarry c).watchers = s.watchers := rfl
@[simp] theorem State.setCarry_run (s : State) (c : Trit) :
    (s.setCarry c).run = s.run := rfl
@[simp] theorem State.setCarry_trace (s : State) (c : Trit) :
    (s.setCarry c).trace = s.trace := rfl
@[simp] theorem State.setCarry_draws (s : State) (c : Trit) :
    (s.setCarry c).draws = s.draws := rfl

/-! ### setPc -/

@[simp] theorem State.setPc_regs (s : State) (t : Tryte) :
    (s.setPc t).regs = s.regs := rfl
@[simp] theorem State.setPc_pc (s : State) (t : Tryte) :
    (s.setPc t).pc = t := rfl
@[simp] theorem State.setPc_carry (s : State) (t : Tryte) :
    (s.setPc t).carry = s.carry := rfl
@[simp] theorem State.setPc_ci (s : State) (t : Tryte) :
    (s.setPc t).ci = s.ci := rfl
@[simp] theorem State.setPc_mem (s : State) (t : Tryte) :
    (s.setPc t).mem = s.mem := rfl
@[simp] theorem State.setPc_watchers (s : State) (t : Tryte) :
    (s.setPc t).watchers = s.watchers := rfl
@[simp] theorem State.setPc_run (s : State) (t : Tryte) :
    (s.setPc t).run = s.run := rfl
@[simp] theorem State.setPc_trace (s : State) (t : Tryte) :
    (s.setPc t).trace = s.trace := rfl
@[simp] theorem State.setPc_draws (s : State) (t : Tryte) :
    (s.setPc t).draws = s.draws := rfl

/-! ### emit -/

@[simp] theorem State.emit_regs (s : State) (es : List Event) :
    (s.emit es).regs = s.regs := rfl
@[simp] theorem State.emit_pc (s : State) (es : List Event) :
    (s.emit es).pc = s.pc := rfl
@[simp] theorem State.emit_carry (s : State) (es : List Event) :
    (s.emit es).carry = s.carry := rfl
@[simp] theorem State.emit_ci (s : State) (es : List Event) :
    (s.emit es).ci = s.ci := rfl
@[simp] theorem State.emit_mem (s : State) (es : List Event) :
    (s.emit es).mem = s.mem := rfl
@[simp] theorem State.emit_watchers (s : State) (es : List Event) :
    (s.emit es).watchers = s.watchers := rfl
@[simp] theorem State.emit_run (s : State) (es : List Event) :
    (s.emit es).run = s.run := rfl
@[simp] theorem State.emit_trace (s : State) (es : List Event) :
    (s.emit es).trace = s.trace ++ es := rfl
@[simp] theorem State.emit_draws (s : State) (es : List Event) :
    (s.emit es).draws = s.draws := rfl

/-! ### memWrite -/

@[simp] theorem State.memWrite_regs (s : State) (a v : Tryte) :
    (s.memWrite a v).regs = s.regs := rfl
@[simp] theorem State.memWrite_pc (s : State) (a v : Tryte) :
    (s.memWrite a v).pc = s.pc := rfl
@[simp] theorem State.memWrite_carry (s : State) (a v : Tryte) :
    (s.memWrite a v).carry = s.carry := rfl
@[simp] theorem State.memWrite_ci (s : State) (a v : Tryte) :
    (s.memWrite a v).ci = s.ci := rfl
@[simp] theorem State.memWrite_mem (s : State) (a v : Tryte) :
    (s.memWrite a v).mem = writeCell s.mem (cellOf a) v := rfl
@[simp] theorem State.memWrite_watchers (s : State) (a v : Tryte) :
    (s.memWrite a v).watchers = s.watchers := rfl
@[simp] theorem State.memWrite_run (s : State) (a v : Tryte) :
    (s.memWrite a v).run = s.run := rfl
@[simp] theorem State.memWrite_trace (s : State) (a v : Tryte) :
    (s.memWrite a v).trace = s.trace ++ notifications s.watchers a v := rfl
@[simp] theorem State.memWrite_draws (s : State) (a v : Tryte) :
    (s.memWrite a v).draws = s.draws := rfl

/-! ### tilePolicy -/

@[simp] theorem State.tilePolicy_regs (s : State) (a v : Tryte) :
    (s.tilePolicy a v).regs = s.regs := rfl
@[simp] theorem State.tilePolicy_pc (s : State) (a v : Tryte) :
    (s.tilePolicy a v).pc = s.pc := rfl
@[simp] theorem State.tilePolicy_carry (s : State) (a v : Tryte) :
    (s.tilePolicy a v).carry = s.carry := rfl
@[simp] theorem State.tilePolicy_ci (s : State) (a v : Tryte) :
    (s.tilePolicy a v).ci = s.ci := rfl
@[simp] theorem State.tilePolicy_mem (s : State) (a v : Tryte) :
    (s.tilePolicy a v).mem = s.mem := rfl
@[simp] theorem State.tilePolicy_watchers (s : State) (a v : Tryte) :
    (s.tilePolicy a v).watchers = s.watchers := rfl
@[simp] theorem State.tilePolicy_run (s : State) (a v : Tryte) :
    (s.tilePolicy a v).run = s.run := rfl
@[simp] theorem State.tilePolicy_trace (s : State) (a v : Tryte) :
    (s.tilePolicy a v).trace = s.trace ++ tileEvents Config.tileBase Config.tileSize Config.tileFields a v := rfl
@[simp] theorem State.tilePolicy_draws (s : State) (a v : Tryte) :
    (s.tilePolicy a v).draws = s.draws := rfl

/-! ### store -/

@[simp] theorem State.store_regs (s : State) (a v : Tryte) :
    (s.store a v).regs = s.regs := rfl
@[simp] theorem State.store_pc (s : State) (a v : Tryte) :
    (s.store a v).pc = s.pc := rfl
@[simp] theorem State.store_carry (s : State) (a v : Tryte) :
    (s.store a v).carry = s.carry := rfl
@[simp] theorem State.store_ci (s : State) (a v : Tryte) :
    (s.store a v).ci = s.ci := rfl
@[simp] theorem State.store_mem (s : State) (a v : Tryte) :
    (s.store a v).mem = writeCell s.mem (cellOf a) v := rfl
@[simp] theorem State.store_watchers (s : State) (a v : Tryte) :
    (s.store a v).watchers = s.watchers := rfl
@[simp] theorem State.store_run (s : State) (a v : Tryte) :
    (s.store a v).run = s.run := rfl
@[simp] theorem State.store_trace (s : State) (a v : Tryte) :
    (s.store a v).trace = s.trace ++ notifications s.watchers a v
      ++ tileEvents Config.tileBase Config.tileSize Config.tileFields a v := by
  simp [State.store, State.tilePolicy, State.emit, State.memWrite]
@[simp] theorem State.store_draws (s : State) (a v : Tryte) :
    (s.store a v).draws = s.draws := rfl

/-! ### advancePc -/

@[simp] theorem State.advancePc_regs (s : State) :
    s.advancePc.regs = s.regs := rfl
@[simp] theorem State.advancePc_pc (s : State) :
    s.advancePc.pc = (aluAdd s.pc (Tryte.ofInt 1) false s.ci).1 := rfl
@[simp] theorem State.advancePc_carry (s : State) :
    s.advancePc.carry = s.carry := rfl
@[simp] theorem State.advancePc_ci (s : State) :
    s.advancePc.ci = (aluAdd s.pc (Tryte.ofInt 1) false s.ci).2 := rfl
@[simp] theorem State.advancePc_mem (s : State) :
    s.advancePc.mem = s.mem := rfl
@[simp] theorem State.advancePc_watchers (s : State) :
    s.advancePc.watchers = s.watchers := rfl
@[simp] theorem State.advancePc_run (s : State) :
    s.advancePc.run = s.run := rfl
@[simp] theorem State.advancePc_trace (s : State) :
    s.advancePc.trace = s.trace := rfl
@[simp] theorem State.advancePc_draws (s : State) :
    s.advancePc.draws = s.draws := rfl

/-! ### addressed -/

@[simp] theorem State.addressed_regs (s : State) (b o : Tryte) :
    (s.addressed b o).regs = s.regs := rfl
@[simp] theorem State.addressed_pc (s : State) (b o : Tryte) :
    (s.addressed b o).pc = s.pc := rfl
@[simp] theorem State.addressed_carry (s : State) (b o : Tryte) :
    (s.addressed b o).carry = s.carry := rfl
@[simp] theorem State.addressed_ci (s : State) (b o : Tryte) :
    (s.addressed b o).ci = (aluAdd b o false s.ci).2 := rfl
@[simp] theorem State.addressed_mem (s : State) (b o : Tryte) :
    (s.addressed b o).mem = s.mem := rfl
@[simp] theorem State.addressed_watchers (s : State) (b o : Tryte) :
    (s.addressed b o).watchers = s.watchers := rfl
@[simp] theorem State.addressed_run (s : State) (b o : Tryte) :
    (s.addressed b o).run = s.run := rfl
@[simp] theorem State.addressed_trace (s : State) (b o : Tryte) :
    (s.addressed b o).trace = s.trace := rfl
@[simp] theorem State.addressed_draws (s : State) (b o : Tryte) :
    (s.addressed b o).draws = s.draws := rfl

/-! ### raiseHalt -/

@[simp] theorem State.raiseHalt_regs (s : State) (c : HaltCause) (a w : Tryte) :
    (s.raiseHalt c a w).regs = s.regs := rfl
@[simp] theorem State.raiseHalt_pc (s : State) (c : HaltCause) (a w : Tryte) :
    (s.raiseHalt c a w).pc = s.pc := rfl
@[simp] theorem State.raiseHalt_carry (s : State) (c : HaltCause) (a w : Tryte) :
    (s.raiseHalt c a w).carry = s.carry := rfl
@[simp] theorem State.raiseHalt_ci (s : State) (c : HaltCause) (a w : Tryte) :
    (s.raiseHalt c a w).ci = s.ci := rfl
@[simp] theorem State.raiseHalt_mem (s : State) (c : HaltCause) (a w : Tryte) :
    (s.raiseHalt c a w).mem = s.mem := rfl
@[simp] theorem State.raiseHalt_watchers (s : State) (c : HaltCause) (a w : Tryte) :
    (s.raiseHalt c a w).watchers = s.watchers := rfl
@[simp] theorem State.raiseHalt_run (s : State) (c : HaltCause) (a w : Tryte) :
    (s.raiseHalt c a w).run = .halted := rfl
@[simp] theorem State.raiseHalt_trace (s : State) (c : HaltCause) (a w : Tryte) :
    (s.raiseHalt c a w).trace = s.trace ++ [.halt c a w] := rfl
@[simp] theorem State.raiseHalt_draws (s : State) (c : HaltCause) (a w : Tryte) :
    (s.raiseHalt c a w).draws = s.draws := rfl

/-! ### haltIn -/

@[simp] theorem State.haltIn_regs (s : State) (c : HaltCause) (i : Instr) :
    (s.haltIn c i).regs = s.regs := rfl
@[simp] theorem State.haltIn_pc (s : State) (c : HaltCause) (i : Instr) :
    (s.haltIn c i).pc = s.pc := rfl
@[simp] theorem State.haltIn_carry (s : State) (c : HaltCause) (i : Instr) :
    (s.haltIn c i).carry = s.carry := rfl
@[simp] theorem State.haltIn_ci (s : State) (c : HaltCause) (i : Instr) :
    (s.haltIn c i).ci = s.ci := rfl
@[simp] theorem State.haltIn_mem (s : State) (c : HaltCause) (i : Instr) :
    (s.haltIn c i).mem = s.mem := rfl
@[simp] theorem State.haltIn_watchers (s : State) (c : HaltCause) (i : Instr) :
    (s.haltIn c i).watchers = s.watchers := rfl
@[simp] theorem State.haltIn_run (s : State) (c : HaltCause) (i : Instr) :
    (s.haltIn c i).run = .halted := rfl
@[simp] theorem State.haltIn_trace (s : State) (c : HaltCause) (i : Instr) :
    (s.haltIn c i).trace = s.trace
      ++ [.halt c (Tryte.ofInt (s.pc.toInt - i.length)) (encodeWord i)] := rfl
@[simp] theorem State.haltIn_draws (s : State) (c : HaltCause) (i : Instr) :
    (s.haltIn c i).draws = s.draws := rfl

/-! ### reportMissingOperand -/

@[simp] theorem State.reportMissingOperand_regs (s : State) :
    s.reportMissingOperand.regs = s.regs := rfl
@[simp] theorem State.reportMissingOperand_pc (s : State) :
    s.reportMissingOperand.pc = s.pc := rfl
@[simp] theorem State.reportMissingOperand_carry (s : State) :
    s.reportMissingOperand.carry = s.carry := rfl
@[simp] theorem State.reportMissingOperand_ci (s : State) :
    s.reportMissingOperand.ci = s.ci := rfl
@[simp] theorem State.reportMissingOperand_mem (s : State) :
    s.reportMissingOperand.mem = s.mem := rfl
@[simp] theorem State.reportMissingOperand_watchers (s : State) :
    s.reportMissingOperand.watchers = s.watchers := rfl
@[simp] theorem State.reportMissingOperand_run (s : State) :
    s.reportMissingOperand.run = s.run := rfl
@[simp] theorem State.reportMissingOperand_trace (s : State) :
    s.reportMissingOperand.trace = s.trace ++ [.diag .missingOperand] := rfl
@[simp] theorem State.reportMissingOperand_draws (s : State) :
    s.reportMissingOperand.draws = s.draws := rfl

/-! ### freeCarry -/

@[simp] theorem State.freeCarry_regs (s : State) :
    s.freeCarry.regs = s.regs := rfl
@[simp] theorem State.freeCarry_pc (s : State) :
    s.freeCarry.pc = s.pc := rfl
@[simp] theorem State.freeCarry_carry (s : State) :
    s.freeCarry.carry = Config.freeTrit s.draws := rfl
@[simp] theorem State.freeCarry_ci (s : State) :
    s.freeCarry.ci = s.ci := rfl
@[simp] theorem State.freeCarry_mem (s : State) :
    s.freeCarry.mem = s.mem := rfl
@[simp] theorem State.freeCarry_watchers (s : State) :
    s.freeCarry.watchers = s.watchers := rfl
@[simp] theorem State.freeCarry_run (s : State) :
    s.freeCarry.run = s.run := rfl
@[simp] theorem State.freeCarry_trace (s : State) :
    s.freeCarry.trace = s.trace := rfl
@[simp] theorem State.freeCarry_draws (s : State) :
    s.freeCarry.draws = s.draws + 1 := rfl

/-! ### load -/

@[simp] theorem State.load_regs (s : State) (image : List (Tryte × Tryte)) (ws : List Watcher) :
    (s.load image ws).regs = s.regs := rfl
@[simp] theorem State.load_pc (s : State) (image : List (Tryte × Tryte)) (ws : List Watcher) :
    (s.load image ws).pc = Config.entry := rfl
@[simp] theorem State.load_carry (s : State) (image : List (Tryte × Tryte)) (ws : List Watcher) :
    (s.load image ws).carry = Config.freeTrit s.draws := rfl
@[simp] theorem State.load_ci (s : State) (image : List (Tryte × Tryte)) (ws : List Watcher) :
    (s.load image ws).ci = s.ci := rfl
@[simp] theorem State.load_mem (s : State) (image : List (Tryte × Tryte)) (ws : List Watcher) :
    (s.load image ws).mem = memoryOfImage image := rfl
@[simp] theorem State.load_watchers (s : State) (image : List (Tryte × Tryte)) (ws : List Watcher) :
    (s.load image ws).watchers = ws := rfl
@[simp] theorem State.load_run (s : State) (image : List (Tryte × Tryte)) (ws : List Watcher) :
    (s.load image ws).run = .loaded := rfl
@[simp] theorem State.load_trace (s : State) (image : List (Tryte × Tryte)) (ws : List Watcher) :
    (s.load image ws).trace = s.trace := rfl
@[simp] theorem State.load_draws (s : State) (image : List (Tryte × Tryte)) (ws : List Watcher) :
    (s.load image ws).draws = s.draws + 1 := rfl

/-! ### hostReset -/

@[simp] theorem State.hostReset_regs (s : State) :
    s.hostReset.regs = Regs.zero := rfl
@[simp] theorem State.hostReset_pc (s : State) :
    s.hostReset.pc = Config.entry := rfl
@[simp] theorem State.hostReset_carry (s : State) :
    s.hostReset.carry = Config.freeTrit s.draws := rfl
@[simp] theorem State.hostReset_ci (s : State) :
    s.hostReset.ci = s.ci := rfl
@[simp] theorem State.hostReset_mem (s : State) :
    s.hostReset.mem = s.mem := rfl
@[simp] theorem State.hostReset_watchers (s : State) :
    s.hostReset.watchers = s.watchers := rfl
@[simp] theorem State.hostReset_run (s : State) :
    s.hostReset.run = runAfterReset s.run := rfl
@[simp] theorem State.hostReset_trace (s : State) :
    s.hostReset.trace = s.trace := rfl
@[simp] theorem State.hostReset_draws (s : State) :
    s.hostReset.draws = s.draws + 1 := rfl

/-! ### withFetchWord -/

@[simp] theorem State.withFetchWord_regs (s : State) (n w : Nat) :
    (s.withFetchWord n w).regs = s.regs := rfl
@[simp] theorem State.withFetchWord_pc (s : State) (n w : Nat) :
    (s.withFetchWord n w).pc = s.pc := rfl
@[simp] theorem State.withFetchWord_carry (s : State) (n w : Nat) :
    (s.withFetchWord n w).carry = s.carry := rfl
@[simp] theorem State.withFetchWord_ci (s : State) (n w : Nat) :
    (s.withFetchWord n w).ci = s.ci := rfl
@[simp] theorem State.withFetchWord_mem (s : State) (n w : Nat) :
    (s.withFetchWord n w).mem = writeCell (writeCell s.mem (cellOf s.pc) (tableTrytes w).1)
      (cellOf s.advancePc.pc) (tableTrytes w).2 := rfl
@[simp] theorem State.withFetchWord_watchers (s : State) (n w : Nat) :
    (s.withFetchWord n w).watchers = s.watchers := rfl
@[simp] theorem State.withFetchWord_run (s : State) (n w : Nat) :
    (s.withFetchWord n w).run = .loaded := rfl
@[simp] theorem State.withFetchWord_trace (s : State) (n w : Nat) :
    (s.withFetchWord n w).trace = s.trace := rfl
@[simp] theorem State.withFetchWord_draws (s : State) (n w : Nat) :
    (s.withFetchWord n w).draws = s.draws := rfl

/-! ### Reads of registers and memory through the updates -/

theorem State.readReg_eq (s : State) (r : Reg) : s.readReg r = s.regs.get r := rfl

theorem State.memRead_eq (s : State) (a : Tryte) : s.memRead a = readCell s.mem (cellOf a) := rfl

/-- A register read depends on the register file alone. -/
theorem State.readReg_congr {s t : State} (h : t.regs = s.regs) (r : Reg) :
    t.readReg r = s.readReg r := by rw [State.readReg_eq, State.readReg_eq, h]

/-- A memory read depends on the memory alone. -/
theorem State.memRead_congr {s t : State} (h : t.mem = s.mem) (a : Tryte) :
    t.memRead a = s.memRead a := by rw [State.memRead_eq, State.memRead_eq, h]

@[simp] theorem State.writeReg_memRead (s : State) (r : Reg) (v : Tryte) (q : Tryte) :
    (s.writeReg r v).memRead q = s.memRead q := rfl
@[simp] theorem State.setCarry_readReg (s : State) (c : Trit) (q : Reg) :
    (s.setCarry c).readReg q = s.readReg q := rfl
@[simp] theorem State.setCarry_memRead (s : State) (c : Trit) (q : Tryte) :
    (s.setCarry c).memRead q = s.memRead q := rfl
@[simp] theorem State.setPc_readReg (s : State) (t : Tryte) (q : Reg) :
    (s.setPc t).readReg q = s.readReg q := rfl
@[simp] theorem State.setPc_memRead (s : State) (t : Tryte) (q : Tryte) :
    (s.setPc t).memRead q = s.memRead q := rfl
@[simp] theorem State.emit_readReg (s : State) (es : List Event) (q : Reg) :
    (s.emit es).readReg q = s.readReg q := rfl
@[simp] theorem State.emit_memRead (s : State) (es : List Event) (q : Tryte) :
    (s.emit es).memRead q = s.memRead q := rfl
@[simp] theorem State.memWrite_readReg (s : State) (a v : Tryte) (q : Reg) :
    (s.memWrite a v).readReg q = s.readReg q := rfl
@[simp] theorem State.tilePolicy_readReg (s : State) (a v : Tryte) (q : Reg) :
    (s.tilePolicy a v).readReg q = s.readReg q := rfl
@[simp] theorem State.tilePolicy_memRead (s : State) (a v : Tryte) (q : Tryte) :
    (s.tilePolicy a v).memRead q = s.memRead q := rfl
@[simp] theorem State.store_readReg (s : State) (a v : Tryte) (q : Reg) :
    (s.store a v).readReg q = s.readReg q := rfl
@[simp] theorem State.advancePc_readReg (s : State) (q : Reg) :
    s.advancePc.readReg q = s.readReg q := rfl
@[simp] theorem State.advancePc_memRead (s : State) (q : Tryte) :
    s.advancePc.memRead q = s.memRead q := rfl
@[simp] theorem State.addressed_readReg (s : State) (b o : Tryte) (q : Reg) :
    (s.addressed b o).readReg q = s.readReg q := rfl
@[simp] theorem State.addressed_memRead (s : State) (b o : Tryte) (q : Tryte) :
    (s.addressed b o).memRead q = s.memRead q := rfl
@[simp] theorem State.raiseHalt_readReg (s : State) (c : HaltCause) (a w : Tryte) (q : Reg) :
    (s.raiseHalt c a w).readReg q = s.readReg q := rfl
@[simp] theorem State.raiseHalt_memRead (s : State) (c : HaltCause) (a w : Tryte) (q : Tryte) :
    (s.raiseHalt c a w).memRead q = s.memRead q := rfl
@[simp] theorem State.haltIn_readReg (s : State) (c : HaltCause) (i : Instr) (q : Reg) :
    (s.haltIn c i).readReg q = s.readReg q := rfl
@[simp] theorem State.haltIn_memRead (s : State) (c : HaltCause) (i : Instr) (q : Tryte) :
    (s.haltIn c i).memRead q = s.memRead q := rfl
@[simp] theorem State.reportMissingOperand_readReg (s : State) (q : Reg) :
    s.reportMissingOperand.readReg q = s.readReg q := rfl
@[simp] theorem State.reportMissingOperand_memRead (s : State) (q : Tryte) :
    s.reportMissingOperand.memRead q = s.memRead q := rfl

end Sys2Proof.Machine
end

