-- ==== Sys2Proof/Laws/Memory.lean ====
section
/-! SUPPORT. Registers and memory: read after write, and every memory operation keeps the canonical
form. -/

namespace Sys2Proof.Machine

/-! ### Registers -/

@[simp] theorem Regs.get_set_same (x : Regs) (r : Reg) (v : Tryte) : (x.set r v).get r = v := by
  cases r <;> rfl

@[simp] theorem Regs.get_set_other (x : Regs) {r q : Reg} (v : Tryte) (h : q ≠ r) :
    (x.set r v).get q = x.get q := by
  cases r <;> cases q <;> first | rfl | exact absurd rfl h

/-- Two register files with the same nine values are the same. -/
theorem Regs.ext_get {x y : Regs} (h : ∀ r, x.get r = y.get r) : x = y := by
  have h0 := h .r0; have h1 := h .r1; have h2 := h .r2; have h3 := h .r3; have h4 := h .r4
  have h5 := h .r5; have h6 := h .r6; have h7 := h .ra; have h8 := h .sp
  cases x; cases y
  simp_all [Regs.get]

@[simp] theorem State.readReg_writeReg_same (s : State) (r : Reg) (v : Tryte) :
    (s.writeReg r v).readReg r = v := Regs.get_set_same _ _ _

@[simp] theorem State.readReg_writeReg_other (s : State) {r q : Reg} (v : Tryte) (h : q ≠ r) :
    (s.writeReg r v).readReg q = s.readReg q := Regs.get_set_other _ _ h

/-! ### Cells -/

theorem cellOf_lt (a : Tryte) : cellOf a < 19683 := by
  have := a.toInt_bounds
  unfold cellOf; omega

theorem cellOf_inj {a b : Tryte} (h : cellOf a = cellOf b) : a = b := by
  have ha := a.toInt_bounds
  have hb := b.toInt_bounds
  unfold cellOf at h
  exact Tryte.toInt_inj (by omega)

theorem cellOf_ne {a b : Tryte} (h : b ≠ a) : cellOf b ≠ cellOf a := fun e => h (cellOf_inj e)

/-- An offset below every listed one reads `ZERO`. -/
theorem readCell_below {m : Memory} {k : Nat} (h : ∀ c ∈ m, k < c.1) :
    readCell m k = Tryte.zero := by
  induction m with
  | nil => rfl
  | cons c m ih =>
    have hc := h c (by simp)
    have hne : k ≠ c.1 := by omega
    simp only [readCell, if_neg hne]
    exact ih fun d hd => h d (by simp [hd])

/-- The parts of the canonical form of a list with a head. -/
theorem wf_cons {c : Nat × Tryte} {m : Memory} :
    Memory.wf (c :: m) ↔
      (c.1 < 19683 ∧ c.2 ≠ Tryte.zero) ∧ (∀ d ∈ m, c.1 < d.1) ∧ Memory.wf m := by
  simp only [Memory.wf, List.pairwise_cons, List.mem_cons, forall_eq_or_imp]
  tauto

theorem wf_nil : Memory.wf [] := by simp [Memory.wf]

/-- Every offset listed after a write is the written one or was listed before. -/
theorem mem_writeCell {m : Memory} {k : Nat} {v : Tryte} {d : Nat × Tryte}
    (h : d ∈ writeCell m k v) : d = (k, v) ∨ d ∈ m := by
  induction m with
  | nil =>
    simp only [writeCell] at h
    split at h <;> simp_all
  | cons c m ih =>
    obtain ⟨k', w⟩ := c
    simp only [writeCell] at h
    split at h
    · split at h <;> simp_all
    · split at h
      · split at h
        · exact .inr (by simp [h])
        · rcases List.mem_cons.1 h with h | h
          · exact .inl h
          · exact .inr (by simp [h])
      · rcases List.mem_cons.1 h with h | h
        · exact .inr (by simp [h])
        · rcases ih h with h | h
          · exact .inl h
          · exact .inr (by simp [h])

/-- A write keeps the canonical form. -/
theorem writeCell_wf {m : Memory} {k : Nat} (v : Tryte) (hk : k < 19683) (h : m.wf) :
    (writeCell m k v).wf := by
  induction m with
  | nil =>
    simp only [writeCell]
    split
    · exact wf_nil
    · exact wf_cons.2 ⟨⟨hk, by assumption⟩, by simp, wf_nil⟩
  | cons c m ih =>
    obtain ⟨k', w⟩ := c
    obtain ⟨hc, hlt, hm⟩ := wf_cons.1 h
    simp only [writeCell]
    split
    · rename_i hlt'
      split
      · exact h
      · refine wf_cons.2 ⟨⟨hk, by assumption⟩, ?_, h⟩
        intro d hd
        rcases List.mem_cons.1 hd with rfl | hd
        · exact hlt'
        · exact Nat.lt_trans hlt' (hlt d hd)
    · split
      · rename_i _ heq
        subst heq
        split
        · exact hm
        · exact wf_cons.2 ⟨⟨hk, by assumption⟩, hlt, hm⟩
      · refine wf_cons.2 ⟨hc, ?_, ih hm⟩
        intro d hd
        rcases mem_writeCell hd with rfl | hd
        · show k' < k
          omega
        · exact hlt d hd

/-- Read after write, at the written offset and at every other. -/
theorem readCell_writeCell {m : Memory} {k : Nat} {v : Tryte} (j : Nat) (h : m.wf) :
    readCell (writeCell m k v) j = if j = k then v else readCell m j := by
  induction m with
  | nil =>
    by_cases hv : v = Tryte.zero <;> simp [writeCell, readCell, hv]
  | cons c m ih =>
    obtain ⟨k', w⟩ := c
    obtain ⟨-, hlt, hm⟩ := wf_cons.1 h
    have below : ∀ j, j ≤ k' → readCell m j = Tryte.zero := fun j hj =>
      readCell_below fun d hd => Nat.lt_of_le_of_lt hj (hlt d hd)
    simp only [writeCell]
    split
    · rename_i hk
      split
      · rename_i hv
        by_cases hj : j = k
        · subst hj
          have hne : j ≠ k' := by omega
          simp [readCell, hne, below j (by omega), hv]
        · simp [hj]
      · by_cases hj : j = k <;> simp [readCell, hj]
    · split
      · rename_i heq
        subst heq
        split
        · rename_i hv
          by_cases hj : j = k
          · subst hj
            simp [below j (by omega), hv]
          · simp [readCell, hj]
        · by_cases hj : j = k <;> simp [readCell, hj]
      · rename_i hne
        by_cases hj : j = k'
        · subst hj
          have hjk : j ≠ k := fun e => hne e.symm
          simp [readCell, hjk]
        · simp [readCell, hj, ih hm]

/-- `MemRead` after a store at the same address gives the stored value (20_memory.md R61). -/
@[simp] theorem State.memRead_memWrite_same (s : State) (a v : Tryte) (h : s.mem.wf) :
    (s.memWrite a v).memRead a = v := by
  simp [State.memRead_eq, readCell_writeCell _ h]

/-- A store leaves every other cell alone. -/
theorem State.memRead_memWrite_other (s : State) {a b : Tryte} (v : Tryte) (hb : b ≠ a)
    (h : s.mem.wf) : (s.memWrite a v).memRead b = s.memRead b := by
  simp [State.memRead_eq, readCell_writeCell _ h, cellOf_ne hb]

@[simp] theorem State.memRead_store_same (s : State) (a v : Tryte) (h : s.mem.wf) :
    (s.store a v).memRead a = v := by
  simp [State.memRead_eq, readCell_writeCell _ h]

theorem State.memRead_store_other (s : State) {a b : Tryte} (v : Tryte) (hb : b ≠ a)
    (h : s.mem.wf) : (s.store a v).memRead b = s.memRead b := by
  simp [State.memRead_eq, readCell_writeCell _ h, cellOf_ne hb]

/-- The CPU's and the host's stores keep the canonical form. -/
theorem State.memWrite_wf (s : State) (a v : Tryte) (h : s.mem.wf) : (s.memWrite a v).mem.wf :=
  writeCell_wf v (cellOf_lt a) h

theorem State.store_wf (s : State) (a v : Tryte) (h : s.mem.wf) : (s.store a v).mem.wf :=
  writeCell_wf v (cellOf_lt a) h

/-- Stores one after another keep the canonical form. -/
theorem foldl_writeCell_wf (image : List (Tryte × Tryte)) (m : Memory) (h : m.wf) :
    (image.foldl (fun m c => writeCell m (cellOf c.1) c.2) m).wf := by
  induction image generalizing m with
  | nil => exact h
  | cons c image ih => exact ih _ (writeCell_wf c.2 (cellOf_lt c.1) h)

/-- A loaded image is in canonical form. -/
theorem memoryOfImage_wf (image : List (Tryte × Tryte)) : (memoryOfImage image).wf :=
  foldl_writeCell_wf image [] wf_nil

/-- The reset memory is in canonical form. -/
theorem reset_mem_wf : State.reset.mem.wf := wf_nil

/-- Equal memories are equal data: the canonical form is determined by what the cells read as. -/
theorem wf_ext {m n : Memory} (hm : m.wf) (hn : n.wf) (h : ∀ k, readCell m k = readCell n k) :
    m = n := by
  induction m generalizing n with
  | nil =>
    cases n with
    | nil => rfl
    | cons d n =>
      obtain ⟨⟨-, hz⟩, -, -⟩ := wf_cons.1 hn
      exact absurd (by simpa [readCell] using (h d.1).symm) hz
  | cons c m ih =>
    obtain ⟨⟨-, hcz⟩, hclt, hm'⟩ := wf_cons.1 hm
    cases n with
    | nil => exact absurd (by simpa [readCell] using h c.1) hcz
    | cons d n =>
      obtain ⟨⟨-, hdz⟩, hdlt, hn'⟩ := wf_cons.1 hn
      have hc := h c.1
      have hd := h d.1
      have hcd : c.1 = d.1 := by
        rcases Nat.lt_trichotomy c.1 d.1 with hl | he | hg
        · rw [readCell_below (m := d :: n) (k := c.1) (by
            intro e he
            rcases List.mem_cons.1 he with rfl | he
            · exact hl
            · exact Nat.lt_trans hl (hdlt e he))] at hc
          simp [readCell] at hc
          exact absurd hc hcz
        · exact he
        · rw [readCell_below (m := c :: m) (k := d.1) (by
            intro e he
            rcases List.mem_cons.1 he with rfl | he
            · exact hg
            · exact Nat.lt_trans hg (hclt e he))] at hd
          simp [readCell] at hd
          exact absurd hd.symm hdz
      have hv : c.2 = d.2 := by simpa [readCell, hcd] using hc
      have hmn : m = n := ih hm' hn' fun k => by
        by_cases hk : k = c.1
        · subst hk
          rw [readCell_below hclt, readCell_below (m := n) (by rw [hcd]; exact hdlt)]
        · have hk' : k ≠ d.1 := hcd ▸ hk
          simpa [readCell, hk, hk'] using h k
      rw [hmn, Prod.ext hcd hv]

end Sys2Proof.Machine
end

