-- ==== Sys2Proof/Laws/Ops.lean ====
section
/-! SUPPORT. What each shared operation can do: fetch, the two-operand shape, the branches, the store,
the halt. -/

namespace Sys2Proof.Machine

/-! ### Fetch -/

theorem fetch_address (s : State) : s.fetch.address = s.pc := by
  simp only [State.fetch]; split <;> rfl

theorem fetch_word (s : State) : s.fetch.word = s.memRead s.pc := by
  simp only [State.fetch]; split <;> rfl

/-- z is the tryte after the word, there exactly in WI mode (41_cpu_step.md R153). -/
theorem fetch_z (s : State) :
    s.fetch.z = if modeField (s.memRead s.pc) = .wi then some (s.memRead s.advancePc.pc)
      else none := by
  simp only [State.fetch]; split <;> simp_all

/-- The pc passes one tryte, two in WI mode (41_cpu_step.md R151, R153). -/
theorem fetch_state (s : State) :
    s.fetch.state = if modeField (s.memRead s.pc) = .wi then s.advancePc.advancePc
      else s.advancePc := by
  simp only [State.fetch]; split <;> simp_all

theorem fetch_z_isSome (s : State) : s.fetch.z.isSome ↔ modeField s.fetch.word = .wi := by
  rw [fetch_z, fetch_word]; split <;> simp_all

@[simp] theorem fetch_state_regs (s : State) : s.fetch.state.regs = s.regs := by
  rw [fetch_state]; split <;> rfl

@[simp] theorem fetch_state_carry (s : State) : s.fetch.state.carry = s.carry := by
  rw [fetch_state]; split <;> rfl

@[simp] theorem fetch_state_mem (s : State) : s.fetch.state.mem = s.mem := by
  rw [fetch_state]; split <;> rfl

@[simp] theorem fetch_state_watchers (s : State) : s.fetch.state.watchers = s.watchers := by
  rw [fetch_state]; split <;> rfl

@[simp] theorem fetch_state_run (s : State) : s.fetch.state.run = s.run := by
  rw [fetch_state]; split <;> rfl

@[simp] theorem fetch_state_trace (s : State) : s.fetch.state.trace = s.trace := by
  rw [fetch_state]; split <;> rfl

@[simp] theorem fetch_state_draws (s : State) : s.fetch.state.draws = s.draws := by
  rw [fetch_state]; split <;> rfl

/-! ### The shapes of meanings -/

/-- The two-operand shape writes x and nothing else (41_cpu_step.md R161). -/
theorem applyToX_frame (f : Tryte → Tryte → Tryte) (x : Reg) (op : Operand) (s : State) :
    (applyToX f x op s).readReg x = f (s.readReg x) (op2 op s) ∧
      (applyToX f x op s).carry = s.carry ∧ (applyToX f x op s).ci = s.ci ∧
        RegFrame x s (applyToX f x op s) :=
  ⟨by simp [applyToX], rfl, rfl,
    { regs := fun _ h => State.readReg_writeReg_other _ _ h
      mem := fun _ => rfl, pc := rfl, trace := rfl, host := ⟨rfl, rfl, rfl⟩ }⟩

/-- Writing the carry keeps a register frame. -/
theorem RegFrame.setCarry {x : Reg} {s t : State} (h : RegFrame x s t) (c : Trit) :
    RegFrame x s (t.setCarry c) := ⟨h.regs, h.mem, h.pc, h.trace, h.host⟩

/-- A write of the pc alone. -/
theorem PcFrame.setPc (s : State) (t : Tryte) : PcFrame s (s.setPc t) :=
  ⟨fun _ => rfl, fun _ => rfl, rfl, rfl, rfl, rfl, rfl, rfl⟩

theorem PcFrame.refl (s : State) : PcFrame s s :=
  ⟨fun _ => rfl, fun _ => rfl, rfl, rfl, rfl, rfl, rfl, rfl⟩

/-- A store changes the one cell it names (20_memory.md R52). -/
theorem store_frame (s : State) (a v : Tryte) (h : s.mem.wf) : StoreFrame a s (s.store a v) :=
  { regs := fun _ => rfl
    mem := fun _ hb => State.memRead_store_other s v hb h
    pc := rfl, carry := rfl, host := ⟨rfl, rfl, rfl⟩ }

/-- A store's notifications are watcher events alone, all of that address. -/
theorem mem_notifications {ws : List Watcher} {a v : Tryte} {e : Event}
    (h : e ∈ notifications ws a v) : ∃ w ∈ ws, w.address = a ∧ e = .watchNotify w.callback v a := by
  simp only [notifications, List.mem_map, List.mem_filter, decide_eq_true_eq] at h
  obtain ⟨w, ⟨hw, ha⟩, rfl⟩ := h
  exact ⟨w, hw, ha, rfl⟩

/-- The halt is the machine's one way to Halted: what it changes (60_exceptions.md R291). -/
theorem raiseHalt_frame (s : State) (c : HaltCause) (a w : Tryte) :
    s.raiseHalt c a w = { s with run := .halted, trace := s.trace ++ [.halt c a w] } := rfl

end Sys2Proof.Machine
end

