-- ==== Sys2Proof/Laws/PerInstr.lean ====
section
/-! SUPPORT. Facts of every instruction as syntax, one lemma for each constructor. -/

namespace Sys2Proof.Laws.EncodeFields

/-- The word of a well-formed instruction holds its four fields where 30_encoding.md R81 puts them. -/
def Statement (i : Instr) : Prop :=
  i.wf = true →
    opcodeField (encodeWord i) = Config.opc i.mnemonic ∧ modeField (encodeWord i) = i.operand.mode ∧
      xField (encodeWord i) = selectorOfReg i.x ∧ yField (encodeWord i) = yselOfOperand i.operand

/-- The fact holds by the layout alone, whatever the instruction. -/
theorem of_layout (i : Instr) : Statement i := fun h =>
  fields_ofInt (opc_bounds _) (selectorOfReg_bounds _) (yselOfOperand_bounds h)

theorem add (x : Reg) (op : Operand) : Statement (.add x op) := of_layout _
theorem adc (x : Reg) (op : Operand) : Statement (.adc x op) := of_layout _
theorem mul (x : Reg) (op : Operand) : Statement (.mul x op) := of_layout _
theorem div (x : Reg) (op : Operand) : Statement (.div x op) := of_layout _
theorem mod (x : Reg) (op : Operand) : Statement (.mod x op) := of_layout _
theorem neg (x : Reg) (op : Operand) : Statement (.neg x op) := of_layout _
theorem min (x : Reg) (op : Operand) : Statement (.min x op) := of_layout _
theorem max (x : Reg) (op : Operand) : Statement (.max x op) := of_layout _
theorem xor (x : Reg) (op : Operand) : Statement (.xor x op) := of_layout _
theorem con (x : Reg) (op : Operand) : Statement (.con x op) := of_layout _
theorem any (x : Reg) (op : Operand) : Statement (.any x op) := of_layout _
theorem shr (x : Reg) (op : Operand) : Statement (.shr x op) := of_layout _
theorem shu (x : Reg) (op : Operand) : Statement (.shu x op) := of_layout _
theorem mov (x : Reg) (op : Operand) : Statement (.mov x op) := of_layout _
theorem lda (x : Reg) (op : Operand) : Statement (.lda x op) := of_layout _
theorem sta (x : Reg) (op : Operand) : Statement (.sta x op) := of_layout _
theorem ldo (x : Reg) (op : Operand) : Statement (.ldo x op) := of_layout _
theorem sto (x : Reg) (op : Operand) : Statement (.sto x op) := of_layout _
theorem jeq (x : Reg) (op : Operand) : Statement (.jeq x op) := of_layout _
theorem jne (x : Reg) (op : Operand) : Statement (.jne x op) := of_layout _
theorem jgt (x : Reg) (op : Operand) : Statement (.jgt x op) := of_layout _
theorem jlt (x : Reg) (op : Operand) : Statement (.jlt x op) := of_layout _
theorem jge (x : Reg) (op : Operand) : Statement (.jge x op) := of_layout _
theorem jle (x : Reg) (op : Operand) : Statement (.jle x op) := of_layout _
theorem jmp (x : Reg) (op : Operand) : Statement (.jmp x op) := of_layout _
theorem jal (x : Reg) (op : Operand) : Statement (.jal x op) := of_layout _

end Sys2Proof.Laws.EncodeFields
end

