-- ==== Sys2Proof/Laws/Step.lean ====
section
/-! SUPPORT. What one step can do, said once. -/

namespace Sys2Proof.Machine

/-- A core with memory attached and not halted runs one cycle (41_cpu_step.md R162). -/
theorem step_of_steppable {s : State} (hu : s.run ≠ .unloaded) (hh : s.run ≠ .halted) :
    step s = cycle s := by
  unfold step
  cases h : s.run <;> simp_all

theorem step_of_halted {s : State} (h : s.run = .halted) : step s = .next s := by
  unfold step; rw [h]

theorem step_of_unloaded {s : State} (h : s.run = .unloaded) :
    step s = .refused .stepUnloaded := by
  unfold step; rw [h]

/-- The two ends of a cycle: the instruction the opcode names is executed on the fetched state, or the
opcode names none and the core halts (41_cpu_step.md R157, R158). -/
theorem cycle_cases (s : State) :
    (∃ m x op, mnemonicOfOpcode (opcodeField s.fetch.word) = some m ∧
      decodeWord s.fetch.word s.fetch.z = .ok (m.instr x op) ∧
      cycle s = exec (m.instr x op) s.fetch.state) ∨
    (mnemonicOfOpcode (opcodeField s.fetch.word) = none ∧
      cycle s = .next (s.fetch.state.raiseHalt .unknownOpcode s.fetch.address s.fetch.word)) := by
  rcases decodeWord_cases (fetch_z_isSome s) with ⟨m, x, op, hm, -, -, hd⟩ | ⟨hm, hd⟩
  · exact .inl ⟨m, x, op, hm, hd, by simp [cycle, hd]⟩
  · exact .inr ⟨hm, by simp [cycle, hd]⟩

/-- Everything a step that answers a next state can have done. -/
theorem step_cases {s t : State} (h : step s = .next t) :
    (s.run = .halted ∧ t = s) ∨
    (s.run ≠ .halted ∧ s.run ≠ .unloaded ∧
      ((∃ i, decodeWord s.fetch.word s.fetch.z = .ok i ∧ exec i s.fetch.state = .next t) ∨
       (mnemonicOfOpcode (opcodeField s.fetch.word) = none ∧
         t = s.fetch.state.raiseHalt .unknownOpcode s.fetch.address s.fetch.word))) := by
  by_cases hh : s.run = .halted
  · rw [step_of_halted hh] at h
    exact .inl ⟨hh, by simpa using h.symm⟩
  · by_cases hu : s.run = .unloaded
    · rw [step_of_unloaded hu] at h
      cases h
    · rw [step_of_steppable hu hh] at h
      refine .inr ⟨hh, hu, ?_⟩
      rcases cycle_cases s with ⟨m, x, op, -, hd, hc⟩ | ⟨hm, hc⟩
      · exact .inl ⟨_, hd, by rw [← hc, h]⟩
      · exact .inr ⟨hm, by rw [hc] at h; simpa using h.symm⟩

end Sys2Proof.Machine
end

