-- ==== Sys2Proof/Tests/Slice0.lean ====
section
/-! SUPPORT. Our own tests. Words and expected values are those of 95_test_vectors.md and of the worked
examples of the instruction rules. Then one witness for each statement that has hypotheses. -/

namespace Sys2Proof.Tests

open Sys2Proof.Machine

/-! ### Helpers -/

abbrev m := Trit.neg
abbrev o := Trit.zero
abbrev p := Trit.pos

/-- A Loaded core with some registers set, a carry and some cells. -/
def core (regs : List (Reg × Int)) (carry : Trit) (cells : List (Int × Int)) : State :=
  regs.foldl (fun s c => s.writeReg c.1 (Tryte.ofInt c.2))
    { State.reset with
      run := .loaded
      carry := carry
      mem := memoryOfImage (cells.map fun c => (Tryte.ofInt c.1, Tryte.ofInt c.2)) }

/-- What an outcome's next state shows. -/
def shows {α : Type} (f : State → α) : Host.Outcome State Fault Refusal → Option α
  | .next t => some (f t)
  | _ => none

/-- A register and the carry, as integers. -/
def regCarry (r : Reg) (s : State) : Int × Int := ((s.readReg r).toInt, s.carry.toInt)

/-- A register and the pc, as integers. -/
def regPc (r : Reg) (s : State) : Int × Int := ((s.readReg r).toInt, s.pc.toInt)

/-- A cell, as an integer. -/
def cell (a : Int) (s : State) : Int := (s.memRead (Tryte.ofInt a)).toInt

/-! ### WellFormed: each check refuses an ill-formed term -/

theorem test_wf_literal_above : (Instr.add .r0 (.si 5)).wf = false := by decide
theorem test_wf_literal_below : (Instr.jal .r4 (.si (-5))).wf = false := by decide
theorem test_wf_literal_limits : (Operand.si 4).wf = true ∧ (Operand.si (-4)).wf = true := by decide
theorem test_wf_register_operands :
    (Operand.rr .sp).wf = true ∧ (Operand.wi .ra Tryte.zero).wf = true := by decide
theorem test_record_opcode_out_of_range :
    ¬Record.valid { opcode := 41, mode := .rr, xsel := 0, ysel := 0, z := none } := by decide
theorem test_record_xsel_out_of_range :
    ¬Record.valid { opcode := 1, mode := .rr, xsel := -5, ysel := 0, z := none } := by decide
theorem test_record_ysel_out_of_range :
    ¬Record.valid { opcode := 1, mode := .si, xsel := 0, ysel := 5, z := none } := by decide
theorem test_record_z_missing :
    ¬Record.valid { opcode := 1, mode := .wi, xsel := 0, ysel := 0, z := none } := by decide
theorem test_record_z_unexpected :
    ¬Record.valid { opcode := 1, mode := .si, xsel := 0, ysel := 0, z := some Tryte.zero } := by decide

/-! ### Decode and encode: every constructor's word, trit by trit (95_test_vectors.md 2.7) -/

theorem test_codec_add :
    decodeWord ⟨o, o, o, p, o, m, m, p, o⟩ none =
        .ok (.add .r0 (.si 3)) ∧
      encode (.add .r0 (.si 3)) =
        [⟨o, o, o, p, o, m, m, p, o⟩] := by
  decide

theorem test_codec_add_word_immediate :
    decodeWord ⟨o, o, o, p, p, m, m, o, o⟩ (some ⟨o, o, o, o, p, p, m, o, p⟩) =
        .ok (.add .r0 (.wi .r4 (Tryte.ofInt 100))) ∧
      encode (.add .r0 (.wi .r4 (Tryte.ofInt 100))) =
        [⟨o, o, o, p, p, m, m, o, o⟩, ⟨o, o, o, o, p, p, m, o, p⟩] := by
  decide

theorem test_codec_adc :
    decodeWord ⟨o, o, p, m, m, m, o, o, m⟩ none =
        .ok (.adc .r1 (.rr .r3)) ∧
      encode (.adc .r1 (.rr .r3)) =
        [⟨o, o, p, m, m, m, o, o, m⟩] := by
  decide

theorem test_codec_mul :
    decodeWord ⟨o, o, p, o, o, m, m, p, p⟩ none =
        .ok (.mul .r0 (.si 4)) ∧
      encode (.mul .r0 (.si 4)) =
        [⟨o, o, p, o, o, m, m, p, p⟩] := by
  decide

theorem test_codec_div :
    decodeWord ⟨o, o, p, p, m, m, m, m, o⟩ none =
        .ok (.div .r0 (.rr .r1)) ∧
      encode (.div .r0 (.rr .r1)) =
        [⟨o, o, p, p, m, m, m, m, o⟩] := by
  decide

theorem test_codec_mod :
    decodeWord ⟨o, p, m, m, o, m, m, p, o⟩ none =
        .ok (.mod .r0 (.si 3)) ∧
      encode (.mod .r0 (.si 3)) =
        [⟨o, p, m, m, o, m, m, p, o⟩] := by
  decide

theorem test_codec_neg :
    decodeWord ⟨o, p, m, o, m, m, o, m, m⟩ none =
        .ok (.neg .r1 (.rr .r0)) ∧
      encode (.neg .r1 (.rr .r0)) =
        [⟨o, p, m, o, m, m, o, m, m⟩] := by
  decide

theorem test_codec_min :
    decodeWord ⟨o, p, m, p, m, m, m, m, o⟩ none =
        .ok (.min .r0 (.rr .r1)) ∧
      encode (.min .r0 (.rr .r1)) =
        [⟨o, p, m, p, m, m, m, m, o⟩] := by
  decide

theorem test_codec_max :
    decodeWord ⟨o, p, o, m, m, m, m, m, o⟩ none =
        .ok (.max .r0 (.rr .r1)) ∧
      encode (.max .r0 (.rr .r1)) =
        [⟨o, p, o, m, m, m, m, m, o⟩] := by
  decide

theorem test_codec_xor :
    decodeWord ⟨o, p, o, o, m, m, m, m, o⟩ none =
        .ok (.xor .r0 (.rr .r1)) ∧
      encode (.xor .r0 (.rr .r1)) =
        [⟨o, p, o, o, m, m, m, m, o⟩] := by
  decide

theorem test_codec_con :
    decodeWord ⟨o, p, o, p, m, m, m, m, o⟩ none =
        .ok (.con .r0 (.rr .r1)) ∧
      encode (.con .r0 (.rr .r1)) =
        [⟨o, p, o, p, m, m, m, m, o⟩] := by
  decide

theorem test_codec_any :
    decodeWord ⟨o, p, p, m, m, m, m, m, o⟩ none =
        .ok (.any .r0 (.rr .r1)) ∧
      encode (.any .r0 (.rr .r1)) =
        [⟨o, p, p, m, m, m, m, m, o⟩] := by
  decide

theorem test_codec_shr :
    decodeWord ⟨o, p, p, o, o, m, m, p, o⟩ none =
        .ok (.shr .r0 (.si 3)) ∧
      encode (.shr .r0 (.si 3)) =
        [⟨o, p, p, o, o, m, m, p, o⟩] := by
  decide

theorem test_codec_shu :
    decodeWord ⟨o, p, p, p, o, m, m, o, p⟩ none =
        .ok (.shu .r0 (.si 1)) ∧
      encode (.shu .r0 (.si 1)) =
        [⟨o, p, p, p, o, m, m, o, p⟩] := by
  decide

theorem test_codec_mov :
    decodeWord ⟨p, m, m, m, p, p, p, o, o⟩ (some ⟨o, o, o, o, o, p, p, m, m⟩) =
        .ok (.mov .sp (.wi .r4 (Tryte.ofInt 32))) ∧
      encode (.mov .sp (.wi .r4 (Tryte.ofInt 32))) =
        [⟨p, m, m, m, p, p, p, o, o⟩, ⟨o, o, o, o, o, p, p, m, m⟩] := by
  decide

theorem test_codec_nop :
    decodeWord ⟨p, m, m, m, m, m, m, m, m⟩ none =
        .ok (.mov .r0 (.rr .r0)) ∧
      encode (.mov .r0 (.rr .r0)) =
        [⟨p, m, m, m, m, m, m, m, m⟩] := by
  decide

theorem test_codec_lda :
    decodeWord ⟨p, m, m, o, p, m, p, o, o⟩ (some ⟨o, o, o, o, o, p, o, o, o⟩) =
        .ok (.lda .r2 (.wi .r4 (Tryte.ofInt 27))) ∧
      encode (.lda .r2 (.wi .r4 (Tryte.ofInt 27))) =
        [⟨p, m, m, o, p, m, p, o, o⟩, ⟨o, o, o, o, o, p, o, o, o⟩] := by
  decide

theorem test_codec_sta :
    decodeWord ⟨p, m, m, p, m, p, o, p, p⟩ none =
        .ok (.sta .ra (.rr .sp)) ∧
      encode (.sta .ra (.rr .sp)) =
        [⟨p, m, m, p, m, p, o, p, p⟩] := by
  decide

theorem test_codec_ldo :
    decodeWord ⟨p, m, o, m, p, m, m, p, p⟩ (some ⟨o, o, o, o, o, o, o, o, m⟩) =
        .ok (.ldo .r0 (.wi .sp (Tryte.ofInt (-1)))) ∧
      encode (.ldo .r0 (.wi .sp (Tryte.ofInt (-1)))) =
        [⟨p, m, o, m, p, m, m, p, p⟩, ⟨o, o, o, o, o, o, o, o, m⟩] := by
  decide

theorem test_codec_sto :
    decodeWord ⟨p, m, o, o, p, m, o, o, m⟩ (some ⟨o, o, o, o, o, p, o, o, p⟩) =
        .ok (.sto .r1 (.wi .r3 (Tryte.ofInt 28))) ∧
      encode (.sto .r1 (.wi .r3 (Tryte.ofInt 28))) =
        [⟨p, m, o, o, p, m, o, o, m⟩, ⟨o, o, o, o, o, p, o, o, p⟩] := by
  decide

theorem test_codec_jeq :
    decodeWord ⟨p, m, o, p, p, m, m, m, o⟩ (some ⟨o, o, o, o, p, p, m, o, p⟩) =
        .ok (.jeq .r0 (.wi .r1 (Tryte.ofInt 100))) ∧
      encode (.jeq .r0 (.wi .r1 (Tryte.ofInt 100))) =
        [⟨p, m, o, p, p, m, m, m, o⟩, ⟨o, o, o, o, p, p, m, o, p⟩] := by
  decide

theorem test_codec_jne :
    decodeWord ⟨p, m, p, m, p, m, m, m, o⟩ (some ⟨o, o, o, o, p, p, m, o, p⟩) =
        .ok (.jne .r0 (.wi .r1 (Tryte.ofInt 100))) ∧
      encode (.jne .r0 (.wi .r1 (Tryte.ofInt 100))) =
        [⟨p, m, p, m, p, m, m, m, o⟩, ⟨o, o, o, o, p, p, m, o, p⟩] := by
  decide

theorem test_codec_jgt :
    decodeWord ⟨p, m, p, o, p, m, o, m, p⟩ (some ⟨o, o, o, o, o, o, o, p, o⟩) =
        .ok (.jgt .r1 (.wi .r2 (Tryte.ofInt 3))) ∧
      encode (.jgt .r1 (.wi .r2 (Tryte.ofInt 3))) =
        [⟨p, m, p, o, p, m, o, m, p⟩, ⟨o, o, o, o, o, o, o, p, o⟩] := by
  decide

theorem test_codec_jlt :
    decodeWord ⟨p, m, p, p, p, m, m, o, o⟩ (some ⟨o, o, o, o, o, o, o, o, p⟩) =
        .ok (.jlt .r0 (.wi .r4 (Tryte.ofInt 1))) ∧
      encode (.jlt .r0 (.wi .r4 (Tryte.ofInt 1))) =
        [⟨p, m, p, p, p, m, m, o, o⟩, ⟨o, o, o, o, o, o, o, o, p⟩] := by
  decide

theorem test_codec_jge :
    decodeWord ⟨p, o, m, m, p, m, m, m, o⟩ (some ⟨o, o, o, o, p, p, m, o, p⟩) =
        .ok (.jge .r0 (.wi .r1 (Tryte.ofInt 100))) ∧
      encode (.jge .r0 (.wi .r1 (Tryte.ofInt 100))) =
        [⟨p, o, m, m, p, m, m, m, o⟩, ⟨o, o, o, o, p, p, m, o, p⟩] := by
  decide

theorem test_codec_jle :
    decodeWord ⟨p, o, m, o, p, m, m, m, o⟩ (some ⟨o, o, o, o, p, p, m, o, p⟩) =
        .ok (.jle .r0 (.wi .r1 (Tryte.ofInt 100))) ∧
      encode (.jle .r0 (.wi .r1 (Tryte.ofInt 100))) =
        [⟨p, o, m, o, p, m, m, m, o⟩, ⟨o, o, o, o, p, p, m, o, p⟩] := by
  decide

theorem test_codec_jmp :
    decodeWord ⟨p, o, m, p, o, o, o, p, m⟩ none =
        .ok (.jmp .r4 (.si 2)) ∧
      encode (.jmp .r4 (.si 2)) =
        [⟨p, o, m, p, o, o, o, p, m⟩] := by
  decide

theorem test_codec_jal :
    decodeWord ⟨p, o, o, m, p, o, o, o, o⟩ (some ⟨o, o, o, o, o, o, p, m, p⟩) =
        .ok (.jal .r4 (.wi .r4 (Tryte.ofInt 7))) ∧
      encode (.jal .r4 (.wi .r4 (Tryte.ofInt 7))) =
        [⟨p, o, o, m, p, o, o, o, o⟩, ⟨o, o, o, o, o, o, p, m, p⟩] := by
  decide

theorem test_decode_zero_tryte_reserved :
    decodeWord Tryte.zero none = .error (.reservedOpcode 0) := by decide
theorem test_decode_largest_tryte_reserved :
    decodeStream [⟨p, p, p, p, p, p, p, p, p⟩, Tryte.zero] = .error (.reservedOpcode 40) := by decide
/-- A number of the opcode table: the word's value 288, z = 100 in the nine digits above it. -/
theorem test_decode_table_word :
    decodeTableWord 16 (288 + 19683 * 100) = some (.add .r0 (.wi .r4 (Tryte.ofInt 100))) := by
  decide
theorem test_fetch_word_is_fetched :
    shows (regPc .r4) (step (State.reset.withFetchWord 16 243)) = some (0, 1) ∧
      (State.reset.withFetchWord 16 (3402 + 81)).fetch.word = Tryte.ofInt 3483 := by decide

/-! ### Conversions and the ALU -/

theorem test_decimal_five : tryteFromDecimal 5 = ⟨o, o, o, o, o, o, p, m, m⟩ := by decide
theorem test_decimal_minus_five : tryteFromDecimal (-5) = ⟨o, o, o, o, o, o, m, p, p⟩ := by decide
theorem test_string_minus_o : tryteFromString ['-', 'o'] = some (Tryte.ofInt (-3)) := by decide
theorem test_string_minus_one : tryteFromString ['-', '1'] = some (Tryte.ofInt (-1)) := by decide
theorem test_string_errors :
    tryteFromString [] = none ∧ tryteFromString ['9', '8', '4', '2'] = none ∧
      tryteFromString ['1', '2', 'a'] = none ∧
      tryteFromString (List.replicate 10 '+') = none := by decide
theorem test_compare_first_difference :
    aluCompare (Tryte.ofInt 13) (Tryte.ofInt 14) = .neg ∧
      aluCompare (Tryte.ofInt 5) (Tryte.ofInt (-7)) = .pos := by decide

/-! ### Instructions -/

theorem test_add_wraps :
    shows (regCarry .r0) (exec (.add .r0 (.si 1)) (core [(.r0, 9841)] .neg [])) =
      some (-9841, 1) := by decide
theorem test_add_doubles :
    shows (regCarry .r6) (exec (.add .r6 (.rr .r6)) (core [(.r6, 9841)] .pos [])) =
      some (-1, 1) := by decide
theorem test_adc_carry_in :
    shows (regCarry .r1) (exec (.adc .r1 (.rr .r3)) (core [(.r1, 1), (.r3, 2)] .pos [])) =
      some (4, 0) := by decide
theorem test_adc_lower_extreme :
    shows (regCarry .r0) (exec (.adc .r0 (.rr .r0)) (core [(.r0, -9841)] .neg [])) =
      some (0, -1) := by decide
theorem test_mul_wraps :
    shows (regCarry .r0) (exec (.mul .r0 (.si 2)) (core [(.r0, 9841)] .pos [])) =
      some (-1, 1) := by decide
theorem test_mul_signs :
    shows (regCarry .r0) (exec (.mul .r0 (.rr .r1)) (core [(.r0, 200), (.r1, -50)] .neg [])) =
      some (9683, -1) := by decide
theorem test_div_toward_zero :
    shows (regCarry .r0) (exec (.div .r0 (.si 2)) (core [(.r0, -7)] .pos [])) =
      some (-3, 1) := by decide
theorem test_div_by_zero_halts :
    shows (fun t => (t.run, t.trace, (t.readReg .r0).toInt, t.pc.toInt))
        (step (core [(.r0, 7)] .pos [(0, 852)])) =
      some (.halted, [.halt .divideByZero Tryte.zero (Tryte.ofInt 852)], 7, 1) := by decide
theorem test_mod_sign_of_dividend :
    shows (regCarry .r0) (exec (.mod .r0 (.rr .r1)) (core [(.r0, -7), (.r1, 2)] .pos [])) =
      some (-1, 1) := by decide
theorem test_mod_negative_divisor :
    shows (regCarry .r0) (exec (.mod .r0 (.si (-2))) (core [(.r0, 7)] .pos [])) =
      some (1, 1) := by decide
theorem test_neg_moves :
    shows (regCarry .r2) (exec (.neg .r2 (.wi .r4 (Tryte.ofInt 100))) (core [(.r2, 9)] .pos [])) =
      some (-100, 1) := by decide
theorem test_neg_most_negative :
    shows (regCarry .r0) (exec (.neg .r0 (.rr .r0)) (core [(.r0, -9841)] .pos [])) =
      some (9841, 1) := by decide

theorem test_min_example :
    shows (regCarry .r0) (exec (.min .r0 (.rr .r1)) (core [(.r0, 6056), (.r1, 9464)] .pos [])) =
      some (5792, 1) := by decide
theorem test_min_short_immediate :
    shows (regCarry .r0) (exec (.min .r0 (.si (-3))) (core [(.r0, 6056)] .neg [])) =
      some (-760, -1) := by decide
theorem test_max_example :
    shows (regCarry .r0) (exec (.max .r0 (.rr .r1)) (core [(.r0, 6056), (.r1, 9464)] .pos [])) =
      some (9728, 1) := by decide
theorem test_max_short_immediate :
    shows (regCarry .r0) (exec (.max .r0 (.si (-3))) (core [(.r0, 6056)] .neg [])) =
      some (6813, -1) := by decide
theorem test_xor_example :
    shows (regCarry .r0) (exec (.xor .r0 (.rr .r1)) (core [(.r0, 6056), (.r1, 9464)] .pos [])) =
      some (-5824, 1) := by decide
theorem test_xor_short_immediate :
    shows (regCarry .r0) (exec (.xor .r0 (.si (-3))) (core [(.r0, 6056)] .neg [])) =
      some (0, -1) := by decide
theorem test_con_example :
    shows (regCarry .r0) (exec (.con .r0 (.rr .r1)) (core [(.r0, 6056), (.r1, 9464)] .pos [])) =
      some (6560, 1) := by decide
theorem test_con_short_immediate :
    shows (regCarry .r0) (exec (.con .r0 (.si (-3))) (core [(.r0, 6056)] .neg [])) =
      some (0, -1) := by decide
theorem test_any_example :
    shows (regCarry .r0) (exec (.any .r0 (.rr .r1)) (core [(.r0, 6056), (.r1, 9464)] .pos [])) =
      some (8960, 1) := by decide
theorem test_any_short_immediate :
    shows (regCarry .r0) (exec (.any .r0 (.si (-3))) (core [(.r0, 6056)] .neg [])) =
      some (6053, -1) := by decide
theorem test_shr_right :
    shows (regCarry .r0) (exec (.shr .r0 (.si 3)) (core [(.r0, 100)] .zero [])) =
      some (4, -1) := by decide
theorem test_shr_left_nine :
    shows (regCarry .r0) (exec (.shr .r0 (.rr .r1)) (core [(.r0, 4000), (.r1, -9)] .zero [])) =
      some (0, 1) := by decide
theorem test_shu_down :
    shows (regCarry .r0) (exec (.shu .r0 (.si (-1))) (core [(.r0, 6056)] .pos [])) =
      some (-1514, 1) := by decide
theorem test_shu_zero_tryte :
    shows (regCarry .r0) (exec (.shu .r0 (.si 1)) (core [] .pos [])) =
      some (9841, 1) := by decide
theorem test_mov_register :
    shows (regCarry .r1) (exec (.mov .r1 (.rr .r0)) (core [(.r0, 4)] .pos [])) =
      some (4, 1) := by decide
theorem test_lda_pointer_replaced :
    shows (regCarry .r0) (exec (.lda .r0 (.rr .r0)) (core [(.r0, 27)] .pos [(27, 100)])) =
      some (100, 1) := by decide
theorem test_lda_short_immediate :
    shows (regCarry .r2) (exec (.lda .r2 (.si (-4))) (core [] .neg [(-4, 77)])) =
      some (77, -1) := by decide
theorem test_sta_pointer :
    shows (cell 32) (exec (.sta .r1 (.rr .sp)) (core [(.r1, -7), (.sp, 32)] .pos [])) =
      some (-7) := by decide
theorem test_sta_zero_unlists :
    shows State.mem (exec (.sta .r1 (.si 2)) (core [] .pos [(2, 5)])) = some [] := by decide
theorem test_ldo_wraps :
    shows (regCarry .r4) (exec (.ldo .r4 (.wi .r3 (Tryte.ofInt 1)))
      (core [(.r3, 9841)] .pos [(-9841, 12)])) = some (12, 1) := by decide
theorem test_ldo_without_z :
    shows State.trace (exec (.ldo .r4 (.rr .r3)) (core [(.r4, 8)] .pos [])) =
      some [.diag .missingOperand] := by decide
theorem test_sto_indexed :
    shows (cell 30) (exec (.sto .r1 (.wi .r3 (Tryte.ofInt 28))) (core [(.r1, -7), (.r3, 2)] .pos [])) =
      some (-7) := by decide
theorem test_watchers_in_order :
    (State.memWrite { State.reset with watchers := [⟨Tryte.ofInt 5, 1⟩, ⟨Tryte.ofInt 6, 2⟩,
        ⟨Tryte.ofInt 5, 0⟩] } (Tryte.ofInt 5) (Tryte.ofInt 9)).trace =
      [.watchNotify 1 (Tryte.ofInt 9) (Tryte.ofInt 5),
        .watchNotify 0 (Tryte.ofInt 9) (Tryte.ofInt 5)] := by decide

theorem test_jeq_on_equal :
    shows (regPc .r0) (exec (.jeq .r0 (.wi .r1 (Tryte.ofInt 100))) (core [(.r0, 5), (.r1, 5)] .pos [])) =
      some (5, 100) := by decide
theorem test_jeq_on_less :
    shows (regPc .r0) (exec (.jeq .r0 (.wi .r1 (Tryte.ofInt 100)))
      (core [(.r0, -9841), (.r1, 9841)] .pos [])) = some (-9841, 0) := by decide
theorem test_jne_on_equal :
    shows (regPc .r0) (exec (.jne .r0 (.wi .r1 (Tryte.ofInt 100))) (core [(.r0, 5), (.r1, 5)] .pos [])) =
      some (5, 0) := by decide
theorem test_jne_on_less :
    shows (regPc .r0) (exec (.jne .r0 (.wi .r1 (Tryte.ofInt 100)))
      (core [(.r0, -9841), (.r1, 9841)] .pos [])) = some (-9841, 100) := by decide
theorem test_jgt_on_equal :
    shows (regPc .r0) (exec (.jgt .r0 (.wi .r1 (Tryte.ofInt 100))) (core [(.r0, 5), (.r1, 5)] .pos [])) =
      some (5, 0) := by decide
theorem test_jgt_on_less :
    shows (regPc .r0) (exec (.jgt .r0 (.wi .r1 (Tryte.ofInt 100)))
      (core [(.r0, -9841), (.r1, 9841)] .pos [])) = some (-9841, 0) := by decide
theorem test_jlt_on_equal :
    shows (regPc .r0) (exec (.jlt .r0 (.wi .r1 (Tryte.ofInt 100))) (core [(.r0, 5), (.r1, 5)] .pos [])) =
      some (5, 0) := by decide
theorem test_jlt_on_less :
    shows (regPc .r0) (exec (.jlt .r0 (.wi .r1 (Tryte.ofInt 100)))
      (core [(.r0, -9841), (.r1, 9841)] .pos [])) = some (-9841, 100) := by decide
theorem test_jge_on_equal :
    shows (regPc .r0) (exec (.jge .r0 (.wi .r1 (Tryte.ofInt 100))) (core [(.r0, 5), (.r1, 5)] .pos [])) =
      some (5, 100) := by decide
theorem test_jge_on_less :
    shows (regPc .r0) (exec (.jge .r0 (.wi .r1 (Tryte.ofInt 100)))
      (core [(.r0, -9841), (.r1, 9841)] .pos [])) = some (-9841, 0) := by decide
theorem test_jle_on_equal :
    shows (regPc .r0) (exec (.jle .r0 (.wi .r1 (Tryte.ofInt 100))) (core [(.r0, 5), (.r1, 5)] .pos [])) =
      some (5, 100) := by decide
theorem test_jle_on_less :
    shows (regPc .r0) (exec (.jle .r0 (.wi .r1 (Tryte.ofInt 100)))
      (core [(.r0, -9841), (.r1, 9841)] .pos [])) = some (-9841, 100) := by decide
theorem test_jmp_short_immediate :
    shows (regPc .r4) (exec (.jmp .r4 (.si (-4))) (core [(.r4, 9)] .pos [])) = some (9, -4) := by decide
theorem test_jmp_return :
    shows (regPc .ra) (exec (.jmp .r4 (.rr .ra)) (core [(.ra, 4)] .pos [])) = some (4, 4) := by decide
theorem test_jal_links :
    shows (regPc .ra) (step ((core [] .pos [(2, 6399), (3, 7)]).setPc (Tryte.ofInt 2))) =
      some (4, 7) := by decide
theorem test_jal_ra_swaps :
    shows (regPc .ra) (step ((core [(.ra, 50)] .pos [(9, 6240)]).setPc (Tryte.ofInt 9))) =
      some (10, 50) := by decide

/-! ### Steps -/

/-- Program P9: the instruction straddles the wrap of the address space. -/
theorem test_pc_wraps :
    shows (regPc .r0) (step ((core [] .pos [(9841, 3447), (-9841, 1234)]).setPc (Tryte.ofInt 9841))) =
      some (1234, -9840) := by decide
theorem test_unknown_opcode_halts :
    shows (fun t => (t.run, t.trace, t.pc.toInt)) (step ((core [] .pos []).setPc (Tryte.ofInt 2))) =
      some (.halted, [.halt .unknownOpcode (Tryte.ofInt 2) Tryte.zero], 3) := by decide
/-- A reserved opcode in word-immediate mode is two trytes long all the same. -/
theorem test_unknown_opcode_passes_z :
    shows (fun t => (t.run, t.pc.toInt)) (step (core [] .pos [(0, 9841)])) =
      some (.halted, 2) := by decide
theorem test_driver_rests_when_stopped :
    shows State.pc (driverStep (core [] .pos [(0, 210)])) = some Tryte.zero := by decide

/-! ### The tile region, on the source's example (95_test_vectors.md S13) -/

theorem test_tile_inside (fields : Tryte → Tryte × Tryte) (v : Tryte) :
    tileEvents 1000 100 fields (Tryte.ofInt 1005) v = [.tileChanged 5 (fields v).1 (fields v).2] := rfl
theorem test_tile_outside (fields : Tryte → Tryte × Tryte) (v : Tryte) :
    tileEvents 1000 100 fields (Tryte.ofInt 999) v = [] ∧
      tileEvents 1000 100 fields (Tryte.ofInt 1100) v = [] := ⟨rfl, rfl⟩

/-! ### The assembler, on the source's scenarios (46_assembler.md R274) -/

theorem test_assemble_scenario_1 :
    (assemble [] "ADD r0, -o\n.loop\nADD r0, +\nJLT r0, r4, .loop".toList).toOption.map
        (fun a => (a.image, a.lines)) =
      some ([(Tryte.ofInt 0, Tryte.ofInt 204), (Tryte.ofInt 1, Tryte.ofInt 208),
        (Tryte.ofInt 2, Tryte.ofInt 5391), (Tryte.ofInt 3, Tryte.ofInt 1)],
        [(0, 1), (1, 3), (2, 4)]) := by decide
theorem test_assemble_scenario_1_as_written :
    assemble [("$ZERO".toList, 0)] ".loop\nJLT r0, $ZERO, .loop".toList =
      .error { line := 2, text := "JLT r0, $ZERO, .loop".toList,
               failure := .wrongOperandKind "JLT".toList 2 .register } := by decide
/-- Each failure names the expectation violated (R272). -/
theorem test_assemble_operand_errors :
    parseInstrLine "MOV r0".toList = .error (.wrongOperandCount "MOV".toList (.exactly 2) 1) ∧
      parseInstrLine "LDO r0, r1, r2".toList =
        .error (.wrongOperandKind "LDO".toList 3 .address) ∧
      parseInstrLine "ADD r0, 9842".toList = .error (.valueOutOfRange 9842) ∧
      parseInstrLine "JMP x".toList = .error (.malformedLiteral "JMP".toList 1 .chooser) ∧
      parseInstrLine "add r0, r1".toList = .error (.unknownMnemonic "add".toList) := by decide
/-- The model's choices of log entries 24 and 25. -/
theorem test_assemble_size_and_empty_pop :
    (layLine 1 "$x[9842]".toList Layout.start).toOption.map Layout.address = some 9842 ∧
      layLine 1 "$x[9843]".toList Layout.start = .error (.layoutOverflow 9842) ∧
      parseInstrLine "POP".toList = .error (.wrongOperandCount "POP".toList .atLeastOne 0) := by
  decide
theorem test_assemble_offset_out_of_range :
    (assemble [("$HW".toList, 9841)] "LDA r0, $HW[1]".toList) =
      .error { line := 1, text := "LDA r0, $HW[1]".toList, failure := .valueOutOfRange 9842 } := by
  decide
theorem test_assemble_push_pop :
    (assemble [] "PSH r0, r1\nPOP r0, r1 ; both".toList).toOption.map
        (fun a => a.image.map fun c => c.2.toInt) =
      some [3784, 280, 3775, 280, 278, 3532, 278, 3541] := by decide
theorem test_assemble_data :
    (assemble [("$HW".toList, 500)] "MOV r0, $b\n.l\n$a[4]\n$b".toList).toOption.map
        (fun a => (a.image.map (fun c => c.2.toInt), a.symbols)) =
      some ([3447, 6], [⟨"$HW".toList, 500, none⟩,
        ⟨".l".toList, 2, none⟩, ⟨"$a".toList, 2, some 4⟩, ⟨"$b".toList, 6, some 1⟩]) := by decide

/-! ### Witnesses: a state and operands that meet the hypotheses of each statement that has some -/

theorem witness_DecimalConversionKeepsNineDigits :
    (-9841 : Int) ≤ -9841 ∧ (-9841 : Int) ≤ 9841 ∧ (tryteFromDecimal (-9841)).toInt = -9841 ∧
      (tryteFromDecimal 9841).toInt = 9841 ∧ (tryteFromDecimal 9842).toInt = -9841 := by decide
theorem witness_StringsAndDecimalsRoundTrip :
    ['+', 'o', '-', '+', 'o', '-', '+', 'o', '-'].length = 9 ∧
      ∀ c ∈ ['+', 'o', '-', '+', 'o', '-', '+', 'o', '-'], c = '+' ∨ c = 'o' ∨ c = '-' := by simp
theorem witness_ShiftIsLoopOfPops :
    ((0 : Int) < 9 ∧ carryShift (Tryte.ofInt (-9841)) 9 .zero = .neg) ∧
      ((0 : Int) < 10 ∧ carryShift (Tryte.ofInt (-9841)) 10 .pos = .zero) ∧
      ((-9 : Int) < 0 ∧ carryShift (Tryte.ofInt 4000) (-9) .zero = .pos) ∧
      ((-10 : Int) < 0 ∧ carryShift (Tryte.ofInt 4000) (-10) .pos = .zero) ∧
      aluShiftRight (Tryte.ofInt 4000) 9 = Tryte.zero ∧
      aluShiftRight (Tryte.ofInt 4000) (-9) = Tryte.zero ∧
      carryShift (Tryte.ofInt 5) 0 .neg = .neg := by decide
theorem witness_ShiftRightThreeLeftThree :
    (2 ≤ 8 ∧ (aluShiftRight (aluShiftRight (Tryte.ofInt 4321) 3) (-3)).digit 2 = .zero) ∧
      (3 ≤ 8 ∧ (aluShiftRight (aluShiftRight (Tryte.ofInt 4321) 3) (-3)).digit 3 = .pos) := by decide
theorem witness_DecodeInvertsEncode :
    (Instr.jal .sp (.si (-4))).wf = true ∧ (Instr.add .r0 (.si 4)).wf = true ∧
      (Instr.sto .r1 (.wi .sp (Tryte.ofInt 9841))).wf = true := by decide
theorem witness_RecordsAndWordsRoundTrip :
    Record.valid { opcode := 40, mode := .wi, xsel := 4, ysel := 4, z := some (Tryte.ofInt 9841) } ∧
      Record.valid { opcode := -40, mode := .rr, xsel := -4, ysel := -4, z := none } := by decide
theorem witness_EncodeInvertsDecode :
    (((none : Option Tryte).isSome = true ↔ modeField (Tryte.ofInt 210) = .wi) ∧
      decodeWord (Tryte.ofInt 210) none = .ok (.add .r0 (.si 3))) ∧
    (((some Tryte.zero).isSome = true ↔ modeField (Tryte.ofInt 6399) = .wi) ∧
      decodeWord (Tryte.ofInt 6399) (some Tryte.zero) = .ok (.jal .r4 (.wi .r4 Tryte.zero))) := by
  decide
theorem witness_ReservedOpcodesRefused :
    (opcodeField (Tryte.ofInt 243) = 1 ∧ (modeField (Tryte.ofInt 243) = .si)) ∧
      opcodeField (Tryte.ofInt 6318) = 26 ∧ opcodeField Tryte.zero = 0 ∧
      opcodeField (Tryte.ofInt 6561) = 27 ∧ opcodeField (Tryte.ofInt (-9841)) = -40 ∧
      modeField (Tryte.ofInt 6318) = .si ∧ modeField (Tryte.ofInt 6561) = .si ∧
      modeField (Tryte.ofInt (-9841)) = .rr := by decide
theorem witness_StepRunsDecodedInstruction :
    let s := core [] .pos [(0, 3447), (1, 100)]
    s.steppable ∧
      decodeWord s.fetch.word s.fetch.z = .ok (.mov .r0 (.wi .r4 (Tryte.ofInt 100))) := by decide
theorem witness_UnknownOpcodeHalts :
    ∀ s ∈ [core [] .pos [], core [] .pos [(0, 6561)], core [] .pos [(0, 9841)], core [] .pos [(0, -9841)]],
      s.steppable ∧ ∀ n ∈ Mnemonic.all, Config.opc n ≠ opcodeField (s.memRead s.pc) := by decide
/-- `Mnemonic.all` holds every mnemonic. -/
theorem mem_mnemonics : ∀ n : Mnemonic, n ∈ Mnemonic.all := by
  intro n; cases n <;> decide
theorem witness_UnloadedRefusesHaltedRests :
    State.reset.run = .unloaded ∧
      ((core [] .pos []).raiseHalt .unknownOpcode Tryte.zero Tryte.zero).run = .halted := by decide
theorem witness_AttachedCoreAlwaysSteps : (core [] .pos []).run ≠ .unloaded := by decide

/-- A core that has a memory and has not halted has the invariant when its memory is canonical. -/
theorem inv_of_steppable {s : State} (hm : s.mem.wf) (hs : s.steppable) : s.Inv :=
  ⟨hm, fun h => (by rcases hs with h' | h' | h' <;> simp [h'] at h),
    fun h => (by rcases hs with h' | h' | h' <;> simp [h'] at h)⟩

theorem witness_StepKeepsInvariant :
    (core [] .pos [(0, 3447), (1, 100)]).Inv ∧
      ∃ t, step (core [] .pos [(0, 3447), (1, 100)]) = .next t := by
  exact ⟨inv_of_steppable (by decide) (by decide), _, rfl⟩
theorem witness_HistoriesKeepInvariant :
    State.reset.Inv ∧
      ∃ t, systemRun [.host (.load [(Tryte.zero, Tryte.ofInt 210)] []), .host .reset, .step]
        State.reset = .next t :=
  ⟨⟨by decide, by decide, by decide⟩, _, rfl⟩
theorem witness_InstructionFootprint :
    (core [] .pos [(2, 5)]).mem.wf ∧
      (∃ t, exec (.sta .r1 (.si 2)) (core [] .pos [(2, 5)]) = .next t) ∧
      destination (.sta .r1 (.si 2)) ≠ some .r1 ∧
      storeAddress (.sta .r1 (.si 2)) (core [] .pos [(2, 5)]) ≠ some (Tryte.ofInt 3) ∧
      writesCarry (.sta .r1 (.si 2)) (core [] .pos [(2, 5)]) = false ∧
      transfersControl (.sta .r1 (.si 2)) = false :=
  ⟨by decide, ⟨_, rfl⟩, by decide, by decide, by decide, by decide⟩
theorem witness_HiddenStateIsInvisible :
    SameToPrograms (core [] .pos [(0, 210), (1, 208)])
        { core [] .pos [(0, 210), (1, 208)] with ci := .neg, draws := 3, watchers := [⟨Tryte.zero, 1⟩] } ∧
      ∃ t, systemRun (List.replicate 2 .step) (core [] .pos [(0, 210), (1, 208)]) = .next t :=
  ⟨⟨rfl, rfl, rfl, rfl, rfl⟩, _, rfl⟩
theorem witness_HaltIsPrecise :
    (core [(.r0, 7)] .pos [(0, 852)]).steppable ∧
      ∃ t, step (core [(.r0, 7)] .pos [(0, 852)]) = .next t ∧ t.run = .halted :=
  ⟨by decide, _, rfl, by decide⟩
theorem witness_StoreIsSeenByNextFetch : (core [(.r0, 208)] .pos [(5, 1)]).mem.wf := by decide
theorem witness_MulResult :
    let P := ((core [(.r0, 9841)] .pos []).readReg .r0).toInt * (op2 (.si (-1)) (core [] .pos [])).toInt
    P ≤ 9841 ∧ -9841 ≤ P := by decide
theorem witness_DivResult :
    (op2 (.si (-1)) (core [] .pos [])).toInt ≠ 0 ∧
      (op2 (.rr .r1) (core [] .pos [])).toInt = 0 := by decide
theorem witness_ModResult :
    (op2 (.si 1) (core [] .pos [])).toInt ≠ 0 ∧
      (op2 (.si 0) (core [] .pos [])).toInt = 0 := by decide
theorem witness_QuotientAndRemainderFit :
    (op2 (.rr .r1) (core [(.r0, -7), (.r1, 2)] .pos [])).toInt ≠ 0 := by decide
theorem witness_DivideByZeroStepHalts :
    let s := core [(.r0, 7)] .pos [(0, 852)]
    let s' := core [(.r0, 7)] .pos [(0, 1095)]
    (s.steppable ∧ decodeWord s.fetch.word s.fetch.z = .ok (.div .r0 (.rr .r1)) ∧
      (op2 (.rr .r1) s).toInt = 0) ∧
    (s'.steppable ∧ decodeWord s'.fetch.word s'.fetch.z = .ok (.mod .r0 (.rr .r1)) ∧
      (op2 (.rr .r1) s').toInt = 0) := by decide
theorem witness_AddThenAdcAddsTwoTryteNumbers :
    (Reg.r1 ≠ .r0 ∧ Reg.r3 ≠ .r0) ∧ (Reg.r1 ≠ .r0 ∧ Reg.r1 ≠ .r0) := by decide
theorem witness_NegThenAddSubtracts : Reg.r2 ≠ Reg.r0 := by decide
theorem witness_StaResult : (core [(.r0, 100)] .pos [(27, 1)]).mem.wf := by decide
theorem witness_StoResult : (core [(.r3, 9841)] .pos [(-9841, 1)]).mem.wf := by decide
theorem witness_MemWriteNotifiesWatchers :
    let s := { core [] .pos [(5, 1)] with watchers := [⟨Tryte.ofInt 6, 0⟩] }
    s.mem.wf ∧ (∀ w ∈ s.watchers, w.address ≠ Tryte.ofInt 5) ∧
      Tryte.ofInt 6 ≠ Tryte.ofInt 5 := by decide
/-- The first and the last cell of a region, and the cells beside them. -/
theorem witness_TileEventExactlyInsideRegion :
    ((1000 : Int) ≤ (Tryte.ofInt 1000).toInt ∧ (Tryte.ofInt 1000).toInt < 1000 + 100) ∧
      ((1000 : Int) ≤ (Tryte.ofInt 1099).toInt ∧ (Tryte.ofInt 1099).toInt < 1000 + 100) ∧
      (Tryte.ofInt 999).toInt < 1000 ∧ (1000 : Int) + 100 ≤ (Tryte.ofInt 1100).toInt := by decide
theorem witness_BranchResults :
    let s := core [(.r0, 5), (.r1, 5), (.r2, 6)] .pos []
    (s.readReg .r0).toInt = (s.readReg .r1).toInt ∧ (s.readReg .r0).toInt ≠ (s.readReg .r2).toInt ∧
      (s.readReg .r2).toInt > (s.readReg .r0).toInt ∧
      (s.readReg .r0).toInt < (s.readReg .r2).toInt := by decide
theorem witness_MissingOperandReportsOnly :
    ∀ i ∈ [Instr.ldo .r0 (.rr .r1), .sto .r0 (.si 0), .jeq .r0 (.rr .r1), .jne .r0 (.si 4),
        .jgt .r0 (.rr .r1), .jlt .r0 (.si (-4)), .jge .r0 (.rr .r1), .jle .r0 (.si 1)],
      i.mnemonic ∈ [.ldo, .sto, .jeq, .jne, .jgt, .jlt, .jge, .jle] ∧ i.operand.mode ≠ .wi := by
  decide
theorem witness_JumpAndLinkThenReturn :
    let s := core [] .pos [(0, 6399), (1, 7)]
    let s' := (core [(.ra, 50)] .pos [(9841, 6240)]).setPc (Tryte.ofInt 9841)
    (s.steppable ∧
      decodeWord s.fetch.word s.fetch.z = .ok (.jal .r4 (.wi .r4 (Tryte.ofInt 7)))) ∧
    (s'.steppable ∧ decodeWord s'.fetch.word s'.fetch.z = .ok (.jal .r4 (.rr .ra))) := by decide
theorem witness_LoadEffects :
    let image := [(Tryte.ofInt 9841, Tryte.ofInt 1), (Tryte.ofInt (-9841), Tryte.zero)]
    (image.map Prod.fst).Nodup ∧ Tryte.zero ∉ image.map Prod.fst := by decide
theorem witness_RunStateTable :
    State.reset.run = .unloaded ∧ (core [] .pos []).run = .loaded ∧
      (core [] .pos []).steppable ∧
      ({ core [] .pos [] with run := .running } : State).run = .running ∧
      ({ core [] .pos [] with run := .stopped } : State).run = .stopped ∧
      ({ core [] .pos [] with run := .halted } : State).run = .halted := by decide
theorem witness_HostWriteEffects :
    ((core [] .pos [(5, 1)]).mem.wf ∧ (core [] .pos [(5, 1)]).run ≠ .unloaded ∧
      Config.isHostCell Config.mouseX = true) ∧
    ((-9842 : Int) < -9841 ∧ (9841 : Int) < 9842) :=
  ⟨⟨by decide, by decide, by simp [Config.isHostCell]⟩, by decide⟩
theorem witness_FirstStepFetchesAddressZero :
    let image := [(Tryte.zero, Tryte.ofInt 210), (Tryte.ofInt 1, Tryte.ofInt 208)]
    (image.map Prod.fst).Nodup ∧ (Tryte.zero, Tryte.ofInt 210) ∈ image := by decide
/-- The values where the chooser changes form, and the ends of the range. -/
theorem witness_ChooserKeepsLiteralValue :
    ∀ n ∈ [(-9841 : Int), -5, -4, 4, 5, 9841], -9841 ≤ n ∧ n ≤ 9841 := by decide
theorem witness_PushThenPopRestores :
    (core [(.r0, 7), (.sp, 9841)] .pos []).mem.wf ∧ Reg.r0 ≠ Reg.sp := by decide

end Sys2Proof.Tests
end

section
/-! PROOF. The state (10_state.md): which parts of it a step can change, which parts a program can
observe, and what construction, `load` and `reset()` leave in it. -/

namespace Sys2Proof.Machine

/-! ### The zero registers and an image's cells -/

@[simp] theorem Regs.get_zero (r : Reg) : Regs.zero.get r = Tryte.zero := by cases r <;> rfl

/-- Stores leave every cell alone whose address is not among theirs. -/
theorem readCell_foldl_writeCell_of_notMem {image : List (Tryte × Tryte)} {m : Memory} {a : Tryte}
    (hm : m.wf) (ha : a ∉ image.map Prod.fst) :
    readCell (image.foldl (fun m c => writeCell m (cellOf c.1) c.2) m) (cellOf a)
      = readCell m (cellOf a) := by
  induction image generalizing m with
  | nil => rfl
  | cons c image ih =>
    obtain ⟨hac, ha⟩ := not_or.1 (mt List.mem_cons.2 ha)
    rw [List.foldl_cons, ih (writeCell_wf c.2 (cellOf_lt c.1) hm) ha, readCell_writeCell _ hm,
      if_neg (cellOf_ne hac)]

/-- Stores at addresses that all differ are all there afterwards. -/
theorem readCell_foldl_writeCell_of_mem {image : List (Tryte × Tryte)} {m : Memory}
    {c : Tryte × Tryte} (hm : m.wf) (hnodup : (image.map Prod.fst).Nodup) (hc : c ∈ image) :
    readCell (image.foldl (fun m c => writeCell m (cellOf c.1) c.2) m) (cellOf c.1) = c.2 := by
  induction image generalizing m with
  | nil => cases hc
  | cons d image ih =>
    obtain ⟨hd, hnodup⟩ := List.nodup_cons.1 hnodup
    have hwf := writeCell_wf d.2 (cellOf_lt d.1) hm
    rw [List.foldl_cons]
    rcases List.mem_cons.1 hc with rfl | hc
    · rw [readCell_foldl_writeCell_of_notMem hwf hd, readCell_writeCell _ hm, if_pos rfl]
    · exact ih hwf hnodup hc

theorem readCell_memoryOfImage_of_mem {image : List (Tryte × Tryte)} {c : Tryte × Tryte}
    (hnodup : (image.map Prod.fst).Nodup) (hc : c ∈ image) :
    readCell (memoryOfImage image) (cellOf c.1) = c.2 :=
  readCell_foldl_writeCell_of_mem wf_nil hnodup hc

theorem readCell_memoryOfImage_of_notMem {image : List (Tryte × Tryte)} {a : Tryte}
    (ha : a ∉ image.map Prod.fst) : readCell (memoryOfImage image) (cellOf a) = Tryte.zero :=
  readCell_foldl_writeCell_of_notMem wf_nil ha

theorem runAfterReset_eq (r : RunState) :
    runAfterReset r = if r = .halted then .loaded else r := by cases r <;> rfl

/-! ### The end of a cycle, and one event of a history -/

theorem cycle_of_decode {s : State} {i : Instr} (h : decodeWord s.fetch.word s.fetch.z = .ok i) :
    cycle s = exec i s.fetch.state := by simp only [cycle, h]

theorem cycle_of_decode_error {s : State} {e : DecodeError}
    (h : decodeWord s.fetch.word s.fetch.z = .error e) :
    cycle s = .next (s.fetch.state.raiseHalt .unknownOpcode s.fetch.address s.fetch.word) := by
  simp only [cycle, h]

/-- A history answers a next state exactly when its first event does and the rest does from
there. -/
theorem systemRun_cons_eq_next {e : SystemEvent} {es : List SystemEvent} {s t : State} :
    systemRun (e :: es) s = .next t ↔
      ∃ u, systemStep e s = .next u ∧ systemRun es u = .next t := by
  cases h : systemStep e s <;> simp [systemRun, h]

/-! ### What an instruction can do to memory and to the host's side -/

/-- The machine goes on from s to t: the host's side is as it was, and memory too, but for one store
at most. -/
structure GoesOn (s t : State) : Prop where
  host : hostSideSame s t
  mem : t.mem = s.mem ∨ ∃ a v, t.mem = writeCell s.mem (cellOf a) v

/-- An update that touches neither memory nor the host's side. -/
theorem GoesOn.of_mem_eq {s t : State} (hhost : hostSideSame s t) (hmem : t.mem = s.mem) :
    GoesOn s t := ⟨hhost, .inl hmem⟩

theorem GoesOn.applyToX (f : Tryte → Tryte → Tryte) (x : Reg) (op : Operand) (s : State) :
    GoesOn s (applyToX f x op s) := .of_mem_eq ⟨rfl, rfl, rfl⟩ rfl

theorem GoesOn.store (s : State) (a v : Tryte) : GoesOn s (s.store a v) :=
  ⟨⟨rfl, rfl, rfl⟩, .inr ⟨a, v, rfl⟩⟩

theorem GoesOn.reportMissingOperand (s : State) : GoesOn s s.reportMissingOperand :=
  .of_mem_eq ⟨rfl, rfl, rfl⟩ rfl

theorem GoesOn.setCarry {s t : State} (h : GoesOn s t) (c : Trit) : GoesOn s (t.setCarry c) :=
  ⟨h.host, h.mem⟩

theorem GoesOn.branchIf (holds : Int → Int → Bool) (x : Reg) (op : Operand) (s : State) :
    GoesOn s (branchIf holds x op s) := by
  cases op with
  | rr y => exact .reportMissingOperand s
  | si n => exact .reportMissingOperand s
  | wi y z =>
    simp only [Machine.branchIf]
    split
    · exact .of_mem_eq ⟨rfl, rfl, rfl⟩ rfl
    · exact .of_mem_eq ⟨rfl, rfl, rfl⟩ rfl

/-- A stored tryte keeps the canonical form, so whatever goes on keeps it. -/
theorem GoesOn.mem_wf {s t : State} (h : GoesOn s t) (hs : s.mem.wf) : t.mem.wf := by
  rcases h.mem with hm | ⟨a, v, hm⟩
  · rwa [hm]
  · rw [hm]; exact writeCell_wf v (cellOf_lt a) hs

/-- DIV and MOD: the halt for a zero divisor, else the two-operand shape. -/
theorem haltIn_or_goesOn_of_division (f : Tryte → Tryte → Tryte) (x : Reg) (op : Operand)
    (i : Instr) (s : State) :
    (if (op2 op s).toInt = 0 then s.haltIn .divideByZero i else applyToX f x op s)
        = s.haltIn .divideByZero i ∨
      GoesOn s (if (op2 op s).toInt = 0 then s.haltIn .divideByZero i else applyToX f x op s) := by
  split
  · exact .inl rfl
  · exact .inr (.applyToX f x op s)

/-- Every instruction answers a next state, in which the machine has halted by a division by zero or
goes on (60_exceptions.md R291, R294). -/
theorem exec_next (i : Instr) (s : State) :
    ∃ t, exec i s = .next t ∧ (t = s.haltIn .divideByZero i ∨ GoesOn s t) := by
  cases i with
  | div x op => exact ⟨_, rfl, haltIn_or_goesOn_of_division aluDivide x op _ s⟩
  | mod x op => exact ⟨_, rfl, haltIn_or_goesOn_of_division aluModulo x op _ s⟩
  | add x op | adc x op | shr x op => exact ⟨_, rfl, .inr ((GoesOn.applyToX _ x op s).setCarry _)⟩
  | mul x op | neg x op | min x op | max x op | xor x op | con x op | any x op | shu x op
  | mov x op | lda x op => exact ⟨_, rfl, .inr (.applyToX _ x op s)⟩
  | sta x op => exact ⟨_, rfl, .inr (.store s _ _)⟩
  | ldo x op =>
    cases op with
    | rr y | si n => exact ⟨_, rfl, .inr (.reportMissingOperand s)⟩
    | wi y z => exact ⟨_, rfl, .inr (.of_mem_eq ⟨rfl, rfl, rfl⟩ rfl)⟩
  | sto x op =>
    cases op with
    | rr y | si n => exact ⟨_, rfl, .inr (.reportMissingOperand s)⟩
    | wi y z => exact ⟨_, rfl, .inr ⟨⟨rfl, rfl, rfl⟩, .inr ⟨_, _, rfl⟩⟩⟩
  | jeq x op | jne x op | jgt x op | jlt x op | jge x op | jle x op =>
    exact ⟨_, rfl, .inr (.branchIf _ x op s)⟩
  | jmp x op | jal x op => exact ⟨_, rfl, .inr (.of_mem_eq ⟨rfl, rfl, rfl⟩ rfl)⟩

theorem exec_cases {i : Instr} {s t : State} (h : exec i s = .next t) :
    t = s.haltIn .divideByZero i ∨ GoesOn s t := by
  obtain ⟨u, hu, hcases⟩ := exec_next i s
  obtain rfl : u = t := Host.Outcome.next.inj (hu.symm.trans h)
  exact hcases

/-! ### The invariant -/

/-- An update that goes on keeps the invariant of a core that is neither Halted nor Unloaded. -/
theorem GoesOn.inv {s t : State} (h : GoesOn s t) (hs : s.mem.wf) (hhalted : s.run ≠ .halted)
    (hunloaded : s.run ≠ .unloaded) : t.Inv := by
  obtain ⟨-, hrun, -⟩ := h.host
  exact ⟨h.mem_wf hs, fun ht => absurd (hrun ▸ ht) hhalted, fun ht => absurd (hrun ▸ ht) hunloaded⟩

/-- The halt reports itself, whatever the core it is raised in. -/
theorem State.raiseHalt_inv {s : State} (hs : s.mem.wf) (c : HaltCause) (a w : Tryte) :
    (s.raiseHalt c a w).Inv where
  mem_wf := hs
  halted_reported _ := by simp [Event.isHalt]
  unloaded_empty h := by simp at h

/-- Settles O19, from what one step can do (`step_cases`) and one instruction (`exec_cases`): it
rests, goes on with at most one cell written, or raises the halt. -/
theorem stepKeepsInvariant : Obligations.StepKeepsInvariant := by
  intro s t hs hstep
  have hwf : s.fetch.state.mem.wf := by rw [fetch_state_mem]; exact hs.mem_wf
  rcases step_cases hstep with ⟨-, rfl⟩ | ⟨hhalted, hunloaded, ⟨i, -, hexec⟩ | ⟨-, rfl⟩⟩
  · exact hs
  · rcases exec_cases hexec with rfl | hgo
    · exact State.raiseHalt_inv hwf _ _ _
    · exact hgo.inv hwf (by simpa using hhalted) (by simpa using hunloaded)
  · exact State.raiseHalt_inv hwf _ _ _

/-- Settles O20: the constructed core is Unloaded and empty, so nothing halted in it. -/
theorem resetSatisfiesInvariant : Obligations.ResetSatisfiesInvariant where
  mem_wf := reset_mem_wf
  halted_reported h := by cases h
  unloaded_empty _ := ⟨rfl, rfl, rfl, rfl, rfl⟩

/-! ### What a program can observe: each operation keeps two states alike -/

section
variable {s t : State}

theorem SameToPrograms.readReg (h : SameToPrograms s t) (r : Reg) : t.readReg r = s.readReg r :=
  State.readReg_congr h.regs r

theorem SameToPrograms.memRead (h : SameToPrograms s t) (a : Tryte) : t.memRead a = s.memRead a :=
  State.memRead_congr h.mem a

theorem SameToPrograms.op2 (h : SameToPrograms s t) (op : Operand) : op2 op t = op2 op s := by
  cases op with
  | rr y => exact h.readReg y
  | si n => rfl
  | wi y z => rfl

theorem SameToPrograms.writeReg (h : SameToPrograms s t) (r : Reg) {v w : Tryte} (hv : w = v) :
    SameToPrograms (s.writeReg r v) (t.writeReg r w) :=
  { h with regs := by rw [hv, State.writeReg_regs, State.writeReg_regs, h.regs] }

theorem SameToPrograms.setCarry (h : SameToPrograms s t) {c d : Trit} (hc : d = c) :
    SameToPrograms (s.setCarry c) (t.setCarry d) := { h with carry := hc }

theorem SameToPrograms.setPc (h : SameToPrograms s t) {a b : Tryte} (hab : b = a) :
    SameToPrograms (s.setPc a) (t.setPc b) := { h with pc := hab }

theorem SameToPrograms.reportMissingOperand (h : SameToPrograms s t) :
    SameToPrograms s.reportMissingOperand t.reportMissingOperand := { h with }

theorem SameToPrograms.raiseHalt (h : SameToPrograms s t) (c d : HaltCause) (a b v w : Tryte) :
    SameToPrograms (s.raiseHalt c a v) (t.raiseHalt d b w) := { h with run := rfl }

/-- The addition that writes CI leaves nothing that a program can see. -/
theorem SameToPrograms.addressed (h : SameToPrograms s t) (b o b' o' : Tryte) :
    SameToPrograms (s.addressed b o) (t.addressed b' o') := { h with }

/-- A store writes the same cell in both, whoever watches it. -/
theorem SameToPrograms.store (h : SameToPrograms s t) {a b v w : Tryte} (ha : b = a) (hv : w = v) :
    SameToPrograms (s.store a v) (t.store b w) :=
  { h with mem := by rw [ha, hv, State.store_mem, State.store_mem, h.mem] }

/-- A fresh addition does not read the carry of its ALU (40_trit_tryte_alu.md R119). -/
theorem aluAdd_fresh_congr (a b : Tryte) (C D : Trit) :
    aluAdd a b false C = aluAdd a b false D := rfl

theorem effectiveAddress_congr (b o : Tryte) (s t : State) :
    effectiveAddress b o t = effectiveAddress b o s := by
  rw [effectiveAddress, effectiveAddress, aluAdd_fresh_congr b o t.ci s.ci]

/-- The pc advances by a fresh addition, so CI does not reach it. -/
theorem SameToPrograms.advancePc (h : SameToPrograms s t) :
    SameToPrograms s.advancePc t.advancePc :=
  { h with
    pc := by rw [State.advancePc_pc, State.advancePc_pc, h.pc, aluAdd_fresh_congr _ _ t.ci s.ci] }

theorem SameToPrograms.applyToX (h : SameToPrograms s t) {f g : Tryte → Tryte → Tryte}
    (hf : ∀ a b, g a b = f a b) (x : Reg) (op : Operand) :
    SameToPrograms (applyToX f x op s) (applyToX g x op t) :=
  h.writeReg x (by rw [hf, h.readReg, h.op2])

theorem SameToPrograms.branchIf (h : SameToPrograms s t) (holds : Int → Int → Bool) (x : Reg)
    (op : Operand) : SameToPrograms (branchIf holds x op s) (branchIf holds x op t) := by
  cases op with
  | rr y => exact h.reportMissingOperand
  | si n => exact h.reportMissingOperand
  | wi y z =>
    simp only [Machine.branchIf, h.readReg]
    split
    · exact h.setPc rfl
    · exact h

/-- DIV and MOD: both states have the same divisor. -/
theorem SameToPrograms.division (h : SameToPrograms s t) (f : Tryte → Tryte → Tryte) (x : Reg)
    (op : Operand) (i : Instr) :
    SameToPrograms
      (if (Machine.op2 op s).toInt = 0 then s.haltIn .divideByZero i else Machine.applyToX f x op s)
      (if (Machine.op2 op t).toInt = 0 then t.haltIn .divideByZero i
        else Machine.applyToX f x op t) := by
  rw [h.op2]
  split
  · exact h.raiseHalt _ _ _ _ _ _
  · exact h.applyToX (fun _ _ => rfl) x op

/-- One instruction on two states that are alike to a program leaves them alike. -/
theorem SameToPrograms.exec (h : SameToPrograms s t) (i : Instr) :
    ∃ u v, exec i s = .next u ∧ exec i t = .next v ∧ SameToPrograms u v := by
  cases i with
  | add x op | adc x op =>
    exact ⟨_, _, rfl, rfl, (h.applyToX (fun _ _ => by rw [h.carry]) x op).setCarry
      (by rw [h.carry, h.readReg, h.op2])⟩
  | shr x op =>
    exact ⟨_, _, rfl, rfl, (h.applyToX (fun _ _ => rfl) x op).setCarry
      (by rw [h.carry, h.readReg, h.op2])⟩
  | div x op | mod x op => exact ⟨_, _, rfl, rfl, h.division _ x op _⟩
  | mul x op | neg x op | min x op | max x op | xor x op | con x op | any x op | shu x op
  | mov x op => exact ⟨_, _, rfl, rfl, h.applyToX (fun _ _ => rfl) x op⟩
  | lda x op => exact ⟨_, _, rfl, rfl, h.applyToX (fun _ a => h.memRead a) x op⟩
  | sta x op => exact ⟨_, _, rfl, rfl, h.store (h.op2 op) (h.readReg x)⟩
  | ldo x op =>
    cases op with
    | rr y | si n => exact ⟨_, _, rfl, rfl, h.reportMissingOperand⟩
    | wi y z =>
      exact ⟨_, _, rfl, rfl, (h.addressed _ _ _ _).writeReg x
        (by rw [h.memRead, h.readReg, effectiveAddress_congr])⟩
  | sto x op =>
    cases op with
    | rr y | si n => exact ⟨_, _, rfl, rfl, h.reportMissingOperand⟩
    | wi y z =>
      exact ⟨_, _, rfl, rfl, (h.addressed _ _ _ _).store
        (by rw [h.readReg, effectiveAddress_congr]) (h.readReg x)⟩
  | jeq x op | jne x op | jgt x op | jlt x op | jge x op | jle x op =>
    exact ⟨_, _, rfl, rfl, h.branchIf _ x op⟩
  | jmp x op => exact ⟨_, _, rfl, rfl, h.setPc (h.op2 op)⟩
  | jal x op => exact ⟨_, _, rfl, rfl, (h.writeReg .ra h.pc).setPc (h.op2 op)⟩

/-! ### Fetch, cycle and step keep them alike -/

theorem SameToPrograms.fetch_word (h : SameToPrograms s t) : t.fetch.word = s.fetch.word := by
  rw [Machine.fetch_word, Machine.fetch_word, h.pc, h.memRead]

theorem SameToPrograms.fetch_z (h : SameToPrograms s t) : t.fetch.z = s.fetch.z := by
  rw [Machine.fetch_z, Machine.fetch_z, h.pc, h.memRead, h.advancePc.pc, h.memRead]

theorem SameToPrograms.fetch_state (h : SameToPrograms s t) :
    SameToPrograms s.fetch.state t.fetch.state := by
  rw [Machine.fetch_state, Machine.fetch_state, h.pc, h.memRead]
  split
  · exact h.advancePc.advancePc
  · exact h.advancePc

theorem SameToPrograms.cycle (h : SameToPrograms s t) :
    ∃ u v, cycle s = .next u ∧ cycle t = .next v ∧ SameToPrograms u v := by
  have hdecode : decodeWord t.fetch.word t.fetch.z = decodeWord s.fetch.word s.fetch.z := by
    rw [h.fetch_word, h.fetch_z]
  cases hs : decodeWord s.fetch.word s.fetch.z with
  | ok i =>
    rw [cycle_of_decode hs, cycle_of_decode (hdecode.trans hs)]
    exact h.fetch_state.exec i
  | error e =>
    rw [cycle_of_decode_error hs, cycle_of_decode_error (hdecode.trans hs)]
    exact ⟨_, _, rfl, rfl, h.fetch_state.raiseHalt _ _ _ _ _ _⟩

theorem SameToPrograms.step {u : State} (h : SameToPrograms s t) (hstep : step s = .next u) :
    ∃ v, step t = .next v ∧ SameToPrograms u v := by
  by_cases hhalted : s.run = .halted
  · obtain rfl : s = u := Host.Outcome.next.inj ((step_of_halted hhalted).symm.trans hstep)
    exact ⟨t, step_of_halted (h.run.trans hhalted), h⟩
  · have hunloaded : s.run ≠ .unloaded := fun hu => by simp [step_of_unloaded hu] at hstep
    obtain ⟨u', v, hs, ht, huv⟩ := h.cycle
    obtain rfl : u' = u :=
      Host.Outcome.next.inj (hs.symm.trans ((step_of_steppable hunloaded hhalted).symm.trans hstep))
    exact ⟨v, (step_of_steppable (h.run ▸ hunloaded) (h.run ▸ hhalted)).trans ht, huv⟩

end

/-- Settles O23, by induction on the number of steps. -/
theorem hiddenStateIsInvisible : Obligations.HiddenStateIsInvisible := by
  intro k
  induction k with
  | zero =>
    intro s s' t h hrun
    obtain rfl : s = t := Host.Outcome.next.inj hrun
    exact ⟨s', rfl, h⟩
  | succ k ih =>
    intro s s' t h hrun
    obtain ⟨u, hstep, hrun⟩ := systemRun_cons_eq_next.1 hrun
    obtain ⟨u', hstep', hu⟩ := h.step hstep
    obtain ⟨t', hrun', ht⟩ := ih u u' t hu hrun
    exact ⟨t', systemRun_cons_eq_next.2 ⟨u', hstep', hrun'⟩, ht⟩

/-! ### Construction, load and reset -/

/-- Settles O53, by induction on the image: the cells read back from the memory that its stores
leave. -/
theorem loadEffects : Obligations.LoadEffects := by
  intro s image ws hnodup
  exact ⟨s.load image ws, rfl, fun _ hc => readCell_memoryOfImage_of_mem hnodup hc,
    fun _ ha => readCell_memoryOfImage_of_notMem ha, rfl, rfl, fun _ => rfl, rfl, rfl⟩

/-- Settles O52: every field of the constructed core but the carries and draws (10_state.md R33). -/
theorem constructionState : Obligations.ConstructionState :=
  ⟨Regs.get_zero, rfl, fun _ => rfl, rfl, rfl, rfl⟩

/-- Settles O54: the carry it draws aside, `reset()` writes registers, pc and run state alone. -/
theorem resetEffects : Obligations.ResetEffects := fun s =>
  ⟨s.hostReset, rfl, Regs.get_zero, rfl, fun _ => rfl, rfl, rfl, runAfterReset_eq s.run⟩

end Sys2Proof.Machine
end

section
/-! PROOF. Memory (20_memory.md): what a store changes and reports, what the host's requests can do
between steps, and the invariant along a whole history. -/

namespace Sys2Proof.Machine

/-! ### Stores -/

/-- A store to an address that nobody watches notifies nobody (20_memory.md R52). -/
theorem notifications_of_unwatched {ws : List Watcher} {a : Tryte} (v : Tryte)
    (h : ∀ w ∈ ws, w.address ≠ a) : notifications ws a v = [] := by
  have hnone : ws.filter (fun w => w.address = a) = [] :=
    List.filter_eq_nil_iff.2 fun w hw => by simpa using h w hw
  rw [notifications, hnone, List.map_nil]

/-- A store without the tile policy changes the one cell it names (20_memory.md R52). -/
theorem memWrite_frame (s : State) (a v : Tryte) (h : s.mem.wf) :
    StoreFrame a s (s.memWrite a v) where
  regs _ := rfl
  mem _ hb := State.memRead_memWrite_other s v hb h
  pc := rfl
  carry := rfl
  host := ⟨rfl, rfl, rfl⟩

theorem exec_sta (x : Reg) (op : Operand) (s : State) :
    exec (.sta x op) s = .next (s.store (op2 op s) (s.readReg x)) := rfl

/-- Settles O25: the fetch reads the memory that the store left (20_memory.md R64). -/
theorem storeIsSeenByNextFetch : Obligations.StoreIsSeenByNextFetch := by
  intro x op s hwf
  refine ⟨_, exec_sta x op s, ?_⟩
  rw [fetch_word, State.setPc_pc, State.setPc_memRead, State.memRead_store_same s _ _ hwf]

/-- Settles O44: the cell by read after write, the notifications by `memWrite`'s own trace. -/
theorem memWriteNotifiesWatchers : Obligations.MemWriteNotifiesWatchers := by
  intro s a v hwf
  refine ⟨State.memRead_memWrite_same s a v hwf,
    fun b hb => State.memRead_memWrite_other s v hb hwf, rfl, fun hunwatched => ?_⟩
  rw [State.memWrite_trace, notifications_of_unwatched v hunwatched, List.append_nil]

/-! ### What a host request can do -/

theorem isAddress_iff {n : Int} : isAddress n = true ↔ -9841 ≤ n ∧ n ≤ 9841 := by simp [isAddress]

/-- What a host request does when it is answered, and when it is: one constructor for each request
(70_reset_and_hazards.md R324, 20_memory.md R59). -/
inductive HostEffect (s : State) : HostAction → State → Prop where
  | load (image : List (Tryte × Tryte)) (ws : List Watcher) :
    HostEffect s (.load image ws) (s.load image ws)
  | reset : HostEffect s .reset s.hostReset
  | start (hrun : s.run = .loaded ∨ s.run = .stopped) :
    HostEffect s .start { s with run := .running }
  | stop (hrun : s.run = .running) : HostEffect s .stop { s with run := .stopped }
  | write {n : Int} (v : Tryte) (hn : -9841 ≤ n ∧ n ≤ 9841) (hrun : s.run ≠ .unloaded)
    (hcell : Config.isHostCell (Tryte.ofInt n) = true) :
    HostEffect s (.write n v) (s.memWrite (Tryte.ofInt n) v)
  | watch (a : Tryte) (callback : Nat) (hrun : s.run ≠ .unloaded) :
    HostEffect s (.watch a callback) { s with watchers := s.watchers ++ [⟨a, callback⟩] }
  | setPc (a : Tryte) (hrun : s.run = .loaded ∨ s.run = .stopped) :
    HostEffect s (.setPc a) (s.setPc a)

/-- An answered request has its effect. -/
theorem hostEffect_of_hostAct {h : HostAction} {s t : State} (hact : hostAct h s = .next t) :
    HostEffect s h t := by
  cases h with
  | load image ws => cases hact; exact .load image ws
  | reset => cases hact; exact .reset
  | start =>
    cases hrun : s.run <;> simp only [hostAct, hrun] at hact <;> cases hact
    · exact .start (.inl hrun)
    · exact .start (.inr hrun)
  | stop =>
    cases hrun : s.run <;> simp only [hostAct, hrun] at hact <;> cases hact
    exact .stop hrun
  | write n v =>
    simp only [hostAct] at hact
    split at hact
    next hn =>
      split at hact
      next => cases hact
      next hrun =>
        split at hact
        next hcell => cases hact; exact .write v (isAddress_iff.1 hn) hrun hcell
        next => cases hact
    next => cases hact
  | watch a callback =>
    simp only [hostAct] at hact
    split at hact
    next => cases hact
    next hrun => cases hact; exact .watch a callback hrun
  | setPc a =>
    cases hrun : s.run <;> simp only [hostAct, hrun] at hact <;> cases hact
    · exact .setPc a (.inl hrun)
    · exact .setPc a (.inr hrun)

/-- A request that has an effect is answered by it. -/
theorem hostAct_of_hostEffect {h : HostAction} {s t : State} (heffect : HostEffect s h t) :
    hostAct h s = .next t := by
  cases heffect with
  | load | reset => rfl
  | start hrun | setPc _ hrun => rcases hrun with hrun | hrun <;> simp only [hostAct, hrun]
  | stop hrun => simp only [hostAct, hrun]
  | write v hn hrun hcell =>
    simp only [hostAct, if_pos (isAddress_iff.2 hn), if_neg hrun, if_pos hcell]
  | watch _ _ hrun => simp only [hostAct, if_neg hrun]

theorem hostAct_eq_next_iff {h : HostAction} {s t : State} :
    hostAct h s = .next t ↔ HostEffect s h t :=
  ⟨hostEffect_of_hostAct, hostAct_of_hostEffect⟩

/-- A write at an integer that is no address is the bounds violation (20_memory.md R53). -/
theorem hostAct_write_outside {n : Int} (v : Tryte) (s : State) (hn : n < -9841 ∨ 9841 < n) :
    hostAct (.write n v) s = .fault .memoryBounds := by
  have hnot : ¬ isAddress n = true := fun h => by have := isAddress_iff.1 h; omega
  simp only [hostAct, if_neg hnot]

/-- A write at a host cell is the plain store, without the tile policy (20_memory.md R59). -/
theorem hostAct_write_hostCell {s : State} {a : Tryte} (v : Tryte) (hrun : s.run ≠ .unloaded)
    (hcell : Config.isHostCell a = true) :
    hostAct (.write a.toInt v) s = .next (s.memWrite a v) := by
  have heffect := HostEffect.write (s := s) v a.toInt_bounds hrun (by rwa [Tryte.ofInt_toInt])
  rw [Tryte.ofInt_toInt] at heffect
  exact hostAct_eq_next_iff.2 heffect

/-- Settles O56: a host write is `memWrite` at a host cell, and the fault outside the addresses. -/
theorem hostWriteEffects : Obligations.HostWriteEffects :=
  ⟨fun s a v hwf hrun hcell => ⟨_, hostAct_write_hostCell v hrun hcell,
    State.memRead_memWrite_same s a v hwf, memWrite_frame s a v hwf, rfl⟩,
    fun s _ v hn => hostAct_write_outside v s hn⟩

/-! ### The invariant along a history -/

/-- Of a core that is neither Halted nor Unloaded the invariant asks a canonical memory alone. -/
theorem State.Inv.of_attached {s : State} (hmem : s.mem.wf) (hhalted : s.run ≠ .halted)
    (hunloaded : s.run ≠ .unloaded) : s.Inv :=
  ⟨hmem, fun h => absurd h hhalted, fun h => absurd h hunloaded⟩

/-- With a memory attached and the run state kept, a canonical memory and a trace that only grew keep
the invariant: a halt once reported stays in the trace. -/
theorem State.Inv.extend {s t : State} (hs : s.Inv) (hunloaded : s.run ≠ .unloaded)
    (hmem : t.mem.wf) (hrun : t.run = s.run) {es : List Event} (htrace : t.trace = s.trace ++ es) :
    t.Inv where
  mem_wf := hmem
  halted_reported h := by
    rw [htrace, List.any_append, hs.halted_reported (hrun ▸ h), Bool.true_or]
  unloaded_empty h := absurd (hrun ▸ h) hunloaded

theorem runAfterReset_ne_halted (r : RunState) : runAfterReset r ≠ .halted := by
  cases r <;> simp [runAfterReset]

theorem runAfterReset_eq_unloaded {r : RunState} : runAfterReset r = .unloaded ↔ r = .unloaded := by
  cases r <;> simp [runAfterReset]

/-- `reset()` leaves Halted, and keeps an Unloaded core as empty as it was. -/
theorem State.Inv.hostReset {s : State} (hs : s.Inv) : s.hostReset.Inv where
  mem_wf := hs.mem_wf
  halted_reported h := absurd h (runAfterReset_ne_halted s.run)
  unloaded_empty h := by
    obtain ⟨hmem, hwatchers, htrace, -, -⟩ := hs.unloaded_empty (runAfterReset_eq_unloaded.1 h)
    exact ⟨hmem, hwatchers, htrace, rfl, rfl⟩

/-- Every host request keeps the invariant. -/
theorem HostEffect.inv {h : HostAction} {s t : State} (heffect : HostEffect s h t) (hs : s.Inv) :
    t.Inv := by
  cases heffect with
  | load image ws => exact .of_attached (memoryOfImage_wf image) (by simp) (by simp)
  | reset => exact hs.hostReset
  | start | stop => exact .of_attached hs.mem_wf (by simp) (by simp)
  | write v _ hrun _ =>
    exact hs.extend hrun (State.memWrite_wf s _ v hs.mem_wf) rfl (State.memWrite_trace s _ v)
  | watch _ _ hrun => exact hs.extend hrun hs.mem_wf rfl (List.append_nil _).symm
  | setPc a hrun =>
    rcases hrun with hrun | hrun <;>
      exact .of_attached hs.mem_wf (by simp [hrun]) (by simp [hrun])

theorem systemStep_keeps_inv {e : SystemEvent} {s t : State} (hs : s.Inv)
    (h : systemStep e s = .next t) : t.Inv := by
  cases e with
  | step => exact stepKeepsInvariant s t hs h
  | host action => exact (hostAct_eq_next_iff.1 h).inv hs

/-- Settles O21, by induction on the history: one event keeps the invariant. -/
theorem historiesKeepInvariant : Obligations.HistoriesKeepInvariant := by
  intro es
  induction es with
  | nil =>
    intro s t hs hrun
    obtain rfl : s = t := Host.Outcome.next.inj hrun
    exact hs
  | cons e es ih =>
    intro s t hs hrun
    obtain ⟨u, hstep, hrest⟩ := systemRun_cons_eq_next.1 hrun
    exact ih u t (systemStep_keeps_inv hs hstep) hrest

end Sys2Proof.Machine
end

section
/-! PROOF. The encoding (30_encoding.md): records and words, the opcode map, instructions and
records, and the codec's round trips over instructions and streams. -/

namespace Sys2Proof

/-! ### Records and words -/

/-- A valid record is read back from its word: its fields are in range (30_encoding.md R86). -/
theorem decodeRecord_of_valid {r : Record} (h : r.valid) :
    decodeRecord (Tryte.ofInt (243 * r.opcode + 81 * r.mode.toInt + 9 * r.xsel + r.ysel)) r.z
      = r := by
  obtain ⟨hopcode, hx, hy, -⟩ := h
  obtain ⟨eopcode, emode, ex, ey⟩ := fields_ofInt (m := r.mode) hopcode hx hy
  simp only [decodeRecord, eopcode, emode, ex, ey]

/-- A word is the weighted sum of its fields, so it is packed again from them (30_encoding.md
R86). -/
theorem encodeRecord_decodeRecord (w : Tryte) (z : Option Tryte) :
    encodeRecord (decodeRecord w z) = w :: z.toList := by
  simp only [encodeRecord, decodeRecord, ← toInt_eq_fields, Tryte.ofInt_toInt]

/-- Settles O10: the fields of a word and the word of fields in range determine each other. -/
theorem recordsAndWordsRoundTrip : Obligations.RecordsAndWordsRoundTrip :=
  ⟨fun _ hvalid => ⟨_, rfl, decodeRecord_of_valid hvalid⟩, encodeRecord_decodeRecord⟩

/-! ### The opcode map -/

theorem mnemonicOfOpcode_eq_some_iff {n : Int} {m : Mnemonic} :
    mnemonicOfOpcode n = some m ↔ Config.opc m = n :=
  ⟨opc_of_mnemonicOfOpcode, fun h => h ▸ mnemonicOfOpcode_opc m⟩

/-- In table order the mnemonics have the opcodes 1 to 26 (30_encoding.md R89). -/
theorem opc_all : Mnemonic.all.map Config.opc = (List.range 26).map fun k : Nat => (k : Int) + 1 :=
  rfl

/-- The assigned opcodes are those from 1 to 26 (30_encoding.md R89, R90). -/
theorem opc_assigned_iff {n : Int} : (∃ m, Config.opc m = n) ↔ 1 ≤ n ∧ n ≤ 26 := by
  constructor
  · rintro ⟨m, rfl⟩
    cases m <;> decide
  · intro hn
    have hmem : n ∈ Mnemonic.all.map Config.opc := by
      rw [opc_all]
      exact List.mem_map.2 ⟨(n - 1).toNat, List.mem_range.2 (by omega), by omega⟩
    obtain ⟨m, -, hm⟩ := List.mem_map.1 hmem
    exact ⟨m, hm⟩

/-- Settles O12: a word fails to decode for its opcode alone; 1 to 26 are assigned. -/
theorem reservedOpcodesRefused : Obligations.ReservedOpcodesRefused := by
  intro w z hz
  rcases decodeWord_cases hz with ⟨m, x, op, hm, -, -, hdecode⟩ | ⟨hnone, hdecode⟩
  · have hassigned := opc_assigned_iff.1 ⟨m, mnemonicOfOpcode_eq_some_iff.1 hm⟩
    exact ⟨fun _ => ⟨_, hdecode⟩, fun houtside => by omega⟩
  · refine ⟨fun hinside => ?_, fun _ => hdecode⟩
    obtain ⟨m, hm⟩ := opc_assigned_iff.2 hinside
    rw [mnemonicOfOpcode_eq_some_iff.2 hm] at hnone
    cases hnone

/-! ### Instructions and records -/

/-- A selector names the one register whose selector it is (30_encoding.md R87). -/
theorem regOfSelector_eq_ok_iff {n : Int} {r : Reg} :
    regOfSelector n = .ok r ↔ selectorOfReg r = n := by
  refine ⟨fun h => ?_, fun h => h ▸ regOfSelector_selectorOfReg r⟩
  cases hn : inField 4 n with
  | true =>
    obtain ⟨r', hr', hsel⟩ := regOfSelector_ok hn
    rw [hr'] at h
    cases h
    exact hsel
  | false =>
    rw [regOfSelector_error hn] at h
    cases h

/-- A result mapped is a success exactly when the result is one. -/
theorem except_map_eq_ok_iff {ε α β : Type} {f : α → β} {e : Except ε α} {b : β} :
    e.map f = .ok b ↔ ∃ a, e = .ok a ∧ f a = b := by
  cases e <;> simp [Except.map]

/-- The operand read from a record is the well-formed one with that mode, y field and z
(30_encoding.md R83, R88; 41_cpu_step.md R155). -/
theorem operandOfRecord_eq_ok_iff {r : Record} {op : Operand} :
    operandOfRecord r = .ok op ↔
      op.wf = true ∧ op.mode = r.mode ∧ yselOfOperand op = r.ysel ∧ zOfOperand op = r.z := by
  constructor
  · intro h
    unfold operandOfRecord at h
    split at h
    next hmode hz =>
      obtain ⟨y, hy, rfl⟩ := except_map_eq_ok_iff.1 h
      exact ⟨rfl, hmode.symm, regOfSelector_eq_ok_iff.1 hy, hz.symm⟩
    next hmode hz =>
      split at h
      next hwf => cases h; exact ⟨hwf, hmode.symm, rfl, hz.symm⟩
      next => cases h
    next z hmode hz =>
      obtain ⟨y, hy, rfl⟩ := except_map_eq_ok_iff.1 h
      exact ⟨rfl, hmode.symm, regOfSelector_eq_ok_iff.1 hy, hz.symm⟩
    next => cases h
    next => cases h
  · rintro ⟨hwf, hmode, hy, hz⟩
    unfold operandOfRecord
    rw [← hmode, ← hy, ← hz]
    cases op with
    | rr y | wi y z => exact except_map_eq_ok_iff.2 ⟨y, regOfSelector_selectorOfReg y, rfl⟩
    | si n => exact if_pos hwf

/-- An instruction is read from a record part by part: mnemonic, x register, operand (41_cpu_step.md
R154, R155, R157). -/
theorem instrOfRecord_eq_ok_iff_parts {r : Record} {i : Instr} :
    instrOfRecord r = .ok i ↔ mnemonicOfOpcode r.opcode = some i.mnemonic ∧
      regOfSelector r.xsel = .ok i.x ∧ operandOfRecord r = .ok i.operand := by
  constructor
  · intro h
    unfold instrOfRecord at h
    split at h
    next => cases h
    next m hm =>
      split at h
      next x op hx hop =>
        cases h
        rw [mnemonic_instr, x_instr, operand_instr]
        exact ⟨hm, hx, hop⟩
      next => cases h
      next => cases h
  · rintro ⟨hm, hx, hop⟩
    simp only [instrOfRecord, hm, hx, hop, instr_of_parts]

/-- An instruction is read from a record exactly when it is well formed and the record is its own
(30_encoding.md R85, R86). -/
theorem instrOfRecord_eq_ok_iff {r : Record} {i : Instr} :
    instrOfRecord r = .ok i ↔ i.wf = true ∧ recordOfInstr i = r := by
  rw [instrOfRecord_eq_ok_iff_parts, mnemonicOfOpcode_eq_some_iff, regOfSelector_eq_ok_iff,
    operandOfRecord_eq_ok_iff]
  obtain ⟨opcode, mode, xsel, ysel, z⟩ := r
  simp only [recordOfInstr, Record.mk.injEq, Instr.wf]
  tauto

/-- A word with its trailing tryte decodes to the well-formed instruction whose record it holds. -/
theorem decodeWord_eq_ok_iff {w : Tryte} {z : Option Tryte} {i : Instr} :
    decodeWord w z = .ok i ↔ i.wf = true ∧ recordOfInstr i = decodeRecord w z :=
  instrOfRecord_eq_ok_iff

/-- Settles O13: each word's fields are those of the instruction's record. -/
theorem specWordsDecode : Obligations.SpecWordsDecode :=
  ⟨decodeWord_eq_ok_iff.2 ⟨rfl, rfl⟩, decodeWord_eq_ok_iff.2 ⟨rfl, rfl⟩,
    decodeWord_eq_ok_iff.2 ⟨rfl, rfl⟩, decodeWord_eq_ok_iff.2 ⟨rfl, rfl⟩,
    decodeWord_eq_ok_iff.2 ⟨rfl, rfl⟩, decodeWord_eq_ok_iff.2 ⟨rfl, rfl⟩⟩

/-- Settles O11: the instruction's record is the word's, and the word is packed from it. -/
theorem encodeInvertsDecode : Obligations.EncodeInvertsDecode := by
  intro w z i _ hdecode
  obtain ⟨hwf, hrecord⟩ := decodeWord_eq_ok_iff.1 hdecode
  refine ⟨hwf, ?_⟩
  rw [encode, hrecord, encodeRecord_decodeRecord]

/-! ### Streams -/

/-- A well-formed instruction is decoded from its word and trailing tryte (30_encoding.md R86). -/
theorem decodeWord_encodeWord {i : Instr} (h : i.wf = true) :
    decodeWord (encodeWord i) (zOfOperand i.operand) = .ok i :=
  decodeWord_eq_ok_iff.2 ⟨h, (decodeRecord_of_valid (recordOfInstr_valid h)).symm⟩

/-- The stream's decoder reads the head word with its trailing tryte, there exactly in WI mode, and
leaves what follows (30_encoding.md R83, R93). -/
theorem decodeStream_of_trailing {w : Tryte} {z : Option Tryte} (hz : z.isSome ↔ modeField w = .wi)
    (rest : List Tryte) :
    decodeStream (w :: (z.toList ++ rest)) = (decodeWord w z).map (·, rest) := by
  cases z with
  | none =>
    have hm : modeField w ≠ .wi := fun h => Bool.false_ne_true (hz.2 h)
    simp [decodeStream, hm]
  | some z =>
    have hm : modeField w = .wi := hz.1 rfl
    simp [decodeStream, hm]

theorem zOfOperand_isSome (op : Operand) : (zOfOperand op).isSome ↔ op.mode = .wi := by
  cases op <;> simp [zOfOperand, Operand.mode]

theorem encode_length (i : Instr) : (encode i).length = i.length := by
  rw [encode_eq, Instr.length]
  cases i.operand <;> rfl

/-- Settles O9: the mode trit of the encoded word says whether z follows, and the word with its z
decodes to the instruction. -/
theorem decodeInvertsEncode : Obligations.DecodeInvertsEncode := by
  intro i rest hwf
  obtain ⟨-, hmode, -, -⟩ := Laws.EncodeFields.of_layout i hwf
  have hz : (zOfOperand i.operand).isSome ↔ modeField (encodeWord i) = .wi := by
    rw [hmode, zOfOperand_isSome]
  refine ⟨?_, encode_length i⟩
  rw [encode_eq, List.cons_append, decodeStream_of_trailing hz, decodeWord_encodeWord hwf]
  rfl

end Sys2Proof
end

section
/-! PROOF. The arithmetic-logic engine and the conversions (40_trit_tryte_alu.md): addition and
comparison on the value of the low digits, shifts as loops, decimals and strings. -/

namespace Sys2Proof.Machine

/-! ### The value of the low digits -/

/-- The value of the k least significant of the digits f (40_trit_tryte_alu.md R115). -/
def lowValue (f : Nat → Trit) (k : Nat) : Int := ∑ d ∈ Finset.range k, (f d).toInt * 3 ^ d

theorem lowValue_zero (f : Nat → Trit) : lowValue f 0 = 0 := rfl

/-- The digits below k + 1 are those below k and one more significant. -/
theorem lowValue_succ (f : Nat → Trit) (k : Nat) :
    lowValue f (k + 1) = lowValue f k + (f k).toInt * 3 ^ k :=
  Finset.sum_range_succ _ k

/-- The digits below k + 1 are digit 0 and k digits of three times the weight. -/
theorem lowValue_succ' (f : Nat → Trit) (k : Nat) :
    lowValue f (k + 1) = (f 0).toInt + 3 * lowValue (fun d => f (d + 1)) k := by
  rw [lowValue, lowValue, Finset.sum_range_succ', Finset.mul_sum, add_comm]
  congr 1
  · ring
  · exact Finset.sum_congr rfl fun d _ => by ring

theorem toInt_ofDigits_eq_lowValue (f : Nat → Trit) :
    (Tryte.ofDigits f).toInt = lowValue f 9 := by
  simp only [lowValue_succ, lowValue_zero, Tryte.ofDigits, Tryte.toInt]
  ring

theorem toInt_eq_lowValue (a : Tryte) : a.toInt = lowValue a.digit 9 :=
  toInt_ofDigits_eq_lowValue a.digit

/-- The low digits together weigh less than one of the next digit. -/
theorem abs_two_mul_lowValue_lt (f : Nat → Trit) (k : Nat) : |2 * lowValue f k| < 3 ^ k := by
  induction k with
  | zero => simp [lowValue_zero]
  | succ k ih =>
    rw [lowValue_succ, pow_succ]
    rw [abs_lt] at ih ⊢
    cases f k <;> simp only [Trit.toInt] <;> constructor <;> linarith

/-! ### Addition -/

/-- The carry into digit d of an addition that starts with carry c (40_trit_tryte_alu.md R119). -/
def carryInto (a b : Tryte) (c : Trit) : Nat → Trit
  | 0 => c
  | d + 1 => (addDigit (a.digit d) (b.digit d) (carryInto a b c d)).2

/-- The result trit of the digit table at digit d of that addition. -/
def sumDigit (a b : Tryte) (c : Trit) (d : Nat) : Trit :=
  (addDigit (a.digit d) (b.digit d) (carryInto a b c d)).1

theorem aluAdd_eq (a b : Tryte) (withCarry : Bool) (C : Trit) :
    aluAdd a b withCarry C =
      (Tryte.ofDigits (sumDigit a b (if withCarry then C else .zero)),
        carryInto a b (if withCarry then C else .zero) 9) := rfl

/-- After k digits, those of the sum and the carry weigh what went in (40_trit_tryte_alu.md R120). -/
theorem lowValue_sumDigit (a b : Tryte) (c : Trit) (k : Nat) :
    lowValue (sumDigit a b c) k + 3 ^ k * (carryInto a b c k).toInt =
      lowValue a.digit k + lowValue b.digit k + c.toInt := by
  induction k with
  | zero => simp [lowValue_zero, carryInto]
  | succ k ih =>
    have hdigit : (sumDigit a b c k).toInt + 3 * (carryInto a b c (k + 1)).toInt = _ :=
      addDigit_law (a.digit k) (b.digit k) (carryInto a b c k)
    simp only [lowValue_succ, pow_succ]
    linear_combination ih + 3 ^ k * hdigit

/-- The sum with its carry is the exact sum (40_trit_tryte_alu.md R120). -/
theorem aluAdd_exact (a b : Tryte) (withCarry : Bool) (C : Trit) :
    (aluAdd a b withCarry C).1.toInt + 19683 * (aluAdd a b withCarry C).2.toInt =
      a.toInt + b.toInt + (if withCarry then C else .zero : Trit).toInt := by
  rw [aluAdd_eq, toInt_ofDigits_eq_lowValue, toInt_eq_lowValue a, toInt_eq_lowValue b]
  exact lowValue_sumDigit a b _ 9

/-- A tryte and a carry that make S are the wrapped S and the carry of S. -/
theorem eq_ofInt_and_carryOfSum {w : Tryte} {c : Trit} {S : Int} (hS : -29523 < S ∧ S ≤ 29523)
    (h : w.toInt + 19683 * c.toInt = S) : w = Tryte.ofInt S ∧ c = carryOfSum S := by
  have hwrap : wrap S = w.toInt := wrap_unique h.symm w.toInt_bounds
  have hlaw := carryOfSum_law hS
  exact ⟨Tryte.eq_ofInt_iff.2 hwrap.symm, Trit.toInt_inj (by omega)⟩

/-- Settles O3: the exact law of the digits leaves one tryte and one carry. -/
theorem addObeysNumericLaw : Obligations.AddObeysNumericLaw := by
  intro a b withCarry C S r
  have hcarry : (if withCarry then C else .zero : Trit).toInt = if withCarry then C.toInt else 0 :=
    apply_ite Trit.toInt _ _ _
  have hexact : r.1.toInt + 19683 * r.2.toInt = S := by rw [aluAdd_exact, hcarry]
  obtain ⟨hlow, hhigh⟩ : -19683 ≤ S ∧ S ≤ 19683 := by
    have ha := a.toInt_bounds
    have hb := b.toInt_bounds
    have hc := (if withCarry then C else .zero : Trit).toInt_bounds
    rw [hcarry] at hc
    omega
  obtain ⟨hsum, hcarryOut⟩ := eq_ofInt_and_carryOfSum (by omega) hexact
  exact ⟨hexact, hlow, hhigh, hsum, hcarryOut⟩

/-! ### Comparison -/

/-- The digits of a and b compared from digit k - 1 down. -/
def compareBelow (a b : Tryte) : Nat → List Trit
  | 0 => []
  | k + 1 => compareTrit (a.digit k) (b.digit k) :: compareBelow a b k

theorem aluCompare_eq (a b : Tryte) : aluCompare a b = firstNonZero (compareBelow a b 9) := rfl

theorem compareTrit_toInt (a b : Trit) : (compareTrit a b).toInt = (a.toInt - b.toInt).sign := by
  cases a <;> cases b <;> rfl

theorem firstNonZero_compareTrit_cons (a b : Trit) (ts : List Trit) :
    firstNonZero (compareTrit a b :: ts) =
      if a = b then firstNonZero ts else compareTrit a b := by
  cases a <;> cases b <;> rfl

/-- A non-zero digit of weight p outweighs everything of magnitude below p. -/
theorem sign_add_mul_of_abs_lt {d v p : Int} (hd : d ≠ 0) (hv : |v| < p) :
    (v + d * p).sign = d.sign := by
  obtain ⟨hlow, hhigh⟩ := abs_lt.1 hv
  rcases hd.lt_or_gt with hneg | hpos
  · rw [Int.sign_eq_neg_one_of_neg hneg, Int.sign_eq_neg_one_of_neg (by nlinarith)]
  · rw [Int.sign_eq_one_of_pos hpos, Int.sign_eq_one_of_pos (by nlinarith)]

/-- Among digits that differ the most significant one decides. -/
theorem firstNonZero_compareBelow (a b : Tryte) (k : Nat) :
    (firstNonZero (compareBelow a b k)).toInt =
      (lowValue a.digit k - lowValue b.digit k).sign := by
  induction k with
  | zero => rfl
  | succ k ih =>
    rw [compareBelow, firstNonZero_compareTrit_cons, lowValue_succ, lowValue_succ]
    split
    next heq => rw [ih, heq, add_sub_add_right_eq_sub]
    next hne =>
      have hdigit : (a.digit k).toInt - (b.digit k).toInt ≠ 0 :=
        fun h => hne (Trit.toInt_inj (sub_eq_zero.1 h))
      have hrest : |lowValue a.digit k - lowValue b.digit k| < 3 ^ k := by
        have ha := abs_lt.1 (abs_two_mul_lowValue_lt a.digit k)
        have hb := abs_lt.1 (abs_two_mul_lowValue_lt b.digit k)
        exact abs_lt.2 ⟨by linarith, by linarith⟩
      rw [compareTrit_toInt, ← sign_add_mul_of_abs_lt hdigit hrest, sub_mul, add_sub_add_comm]

theorem aluCompare_toInt (a b : Tryte) : (aluCompare a b).toInt = (a.toInt - b.toInt).sign := by
  rw [aluCompare_eq, firstNonZero_compareBelow, toInt_eq_lowValue, toInt_eq_lowValue]

/-- Settles O4: the comparison of all nine digits, and the same against value 0. -/
theorem compareIsSignOfDifference : Obligations.CompareIsSignOfDifference := fun a b =>
  ⟨aluCompare_toInt a b, by rw [aluCompare_toInt, Tryte.toInt_zero, sub_zero]⟩

/-! ### Shifts of digits -/

/-- The last turn of the loop taken first (40_trit_tryte_alu.md R133). -/
theorem shiftLoop_succ_last (pop : Tryte → Tryte × Trit) (k : Nat) (s : Tryte × Trit) :
    shiftLoop pop (k + 1) s = pop (shiftLoop pop k s).1 := by
  induction k generalizing s with
  | zero => rfl
  | succ k ih => exact ih (pop s.1)

theorem digit_shiftLoop_popLow (k : Nat) (s : Tryte × Trit) {d : Nat} (hd : d ≤ 8) :
    (shiftLoop popLow k s).1.digit d = s.1.digit (d + k) := by
  induction k generalizing d with
  | zero => rfl
  | succ k ih =>
    rw [shiftLoop_succ_last, digit_popLow _ hd]
    rcases Nat.lt_or_eq_of_le hd with hlt | rfl
    · rw [ih (by omega)]
      congr 1
      omega
    · rw [Tryte.digit_beyond _ (by omega), Tryte.digit_beyond _ (by omega)]

theorem carry_shiftLoop_popLow (k : Nat) (s : Tryte × Trit) :
    (shiftLoop popLow (k + 1) s).2 = s.1.digit k := by
  rw [shiftLoop_succ_last, popLow_carry, digit_shiftLoop_popLow k s (by decide), Nat.zero_add]

theorem digit_shiftLoop_popHigh (k : Nat) (s : Tryte × Trit) {d : Nat} (hd : d ≤ 8) :
    (shiftLoop popHigh k s).1.digit d = if k ≤ d then s.1.digit (d - k) else .zero := by
  induction k generalizing d with
  | zero => rfl
  | succ k ih =>
    rw [shiftLoop_succ_last, digit_popHigh _ hd]
    cases d with
    | zero => simp
    | succ d =>
      rw [if_neg d.succ_ne_zero, ih (by omega)]
      simp [Nat.add_sub_add_right]

theorem carry_shiftLoop_popHigh (k : Nat) (s : Tryte × Trit) :
    (shiftLoop popHigh (k + 1) s).2 = if k ≤ 8 then s.1.digit (8 - k) else .zero := by
  rw [shiftLoop_succ_last, popHigh_carry, digit_shiftLoop_popHigh k s (by decide)]

/-- The carry of a right shift is the last digit popped. -/
theorem carryShift_pos (a : Tryte) {n : Int} (h : 0 < n) (C : Trit) :
    carryShift a n C = a.digit (n.toNat - 1) := by
  rw [carryShift, if_neg h.ne', if_pos h]

/-- The carry of a left shift is the last digit popped, a zero one after all nine. -/
theorem carryShift_neg (a : Tryte) {n : Int} (h : n < 0) (C : Trit) :
    carryShift a n C = if (-n).toNat ≤ 9 then a.digit (9 - (-n).toNat) else .zero := by
  rw [carryShift, if_neg h.ne, if_neg h.not_gt]

/-- A right shift is the loop that pops at the least significant end. -/
theorem shift_eq_loop_popLow (a : Tryte) {n : Int} (h : 0 < n) (C : Trit) :
    (aluShiftRight a n, carryShift a n C) = shiftLoop popLow n.toNat (a, C) := by
  refine Prod.ext (Tryte.ext_digit fun d hd => ?_) ?_
  · rw [digit_aluShiftRight_nonneg a h.le hd, digit_shiftLoop_popLow _ _ hd]
  · obtain ⟨k, hk⟩ : ∃ k, n.toNat = k + 1 := ⟨n.toNat - 1, by omega⟩
    rw [carryShift_pos a h, hk, carry_shiftLoop_popLow, Nat.add_sub_cancel]

/-- A left shift is the loop that pops at the most significant end. -/
theorem shift_eq_loop_popHigh (a : Tryte) {n : Int} (h : n < 0) (C : Trit) :
    (aluShiftRight a n, carryShift a n C) = shiftLoop popHigh (-n).toNat (a, C) := by
  refine Prod.ext (Tryte.ext_digit fun d hd => ?_) ?_
  · rw [digit_aluShiftRight_neg a h hd, digit_shiftLoop_popHigh _ _ hd]
  · obtain ⟨k, hk⟩ : ∃ k, (-n).toNat = k + 1 := ⟨(-n).toNat - 1, by omega⟩
    rw [carryShift_neg a h, hk, carry_shiftLoop_popHigh]
    exact if_congr (by omega) (congrArg a.digit (by omega)) rfl

/-- A shift by nine or more in either direction leaves no digit. -/
theorem aluShiftRight_eq_zero (a : Tryte) {n : Int} (h : 9 ≤ n ∨ n ≤ -9) :
    aluShiftRight a n = Tryte.zero := by
  refine Tryte.ext_digit fun d hd => Eq.trans ?_ (Tryte.digit_ofDigits (fun _ => .zero) hd).symm
  rcases h with h | h
  · rw [digit_aluShiftRight_nonneg a (by omega) hd, Tryte.digit_beyond a (by omega)]
  · rw [digit_aluShiftRight_neg a (by omega) hd, if_neg (by omega)]

/-- A digit index past the top reads zero, so the closed form may say so (40_trit_tryte_alu.md
R133). -/
theorem digit_eq_ite (a : Tryte) (d : Nat) : a.digit d = if d ≤ 8 then a.digit d else .zero := by
  split
  · rfl
  · exact a.digit_beyond (by omega)

/-- Settles O5: the loops by the sign of the count, then the closed forms. -/
theorem shiftIsLoopOfPops : Obligations.ShiftIsLoopOfPops := by
  intro a n C
  refine ⟨?_, fun hpos => ⟨fun d hd => ?_, ?_⟩, fun hneg => ⟨fun d hd => ?_, ?_⟩,
    aluShiftRight_eq_zero a⟩
  · rcases lt_trichotomy n 0 with hneg | rfl | hpos
    · rw [if_neg hneg.not_gt, if_pos hneg, shift_eq_loop_popHigh a hneg]
    · rfl
    · rw [if_pos hpos, shift_eq_loop_popLow a hpos]
  · rw [digit_aluShiftRight_nonneg a hpos.le hd, ← digit_eq_ite]
  · rw [carryShift_pos a hpos]
    exact (digit_eq_ite a _).trans (if_congr (by omega) rfl rfl)
  · exact digit_aluShiftRight_neg a hneg hd
  · rw [carryShift_neg a hneg]
    exact if_congr (by omega) rfl rfl

/-- One shift right is one pop at the least significant end. -/
theorem aluShiftRight_one (a : Tryte) : aluShiftRight a 1 = (popLow a).1 := rfl

/-- One shift left is one pop at the most significant end. -/
theorem aluShiftRight_neg_one (a : Tryte) : aluShiftRight a (-1) = (popHigh a).1 := rfl

/-- The popped lowest trit is the balanced remainder by 3 (40_trit_tryte_alu.md R134). -/
theorem popLow_toInt (a : Tryte) : 3 * (popLow a).1.toInt + a.d0.toInt = a.toInt := by
  simp only [popLow, Tryte.toInt, Trit.toInt]
  ring

/-- The popped highest trit is what three times the value loses (40_trit_tryte_alu.md R134). -/
theorem popHigh_toInt (a : Tryte) : (popHigh a).1.toInt + 19683 * a.d8.toInt = 3 * a.toInt := by
  simp only [popHigh, Tryte.toInt, Trit.toInt]
  ring

/-- Settles O6: the value laws of one pop at either end. -/
theorem oneShiftDividesOrMultipliesByThree : Obligations.OneShiftDividesOrMultipliesByThree := by
  intro a C
  have hright := popLow_toInt a
  have hleft := popHigh_toInt a
  rw [aluShiftRight_one, aluShiftRight_neg_one]
  exact ⟨by omega, rfl, (wrap_unique hleft.symm (Tryte.toInt_bounds _)).symm, rfl, hleft.symm⟩

/-- Shifting right by k and left by k zeroes the k low digits and keeps the rest. -/
theorem digit_aluShiftRight_neg_aluShiftRight (a : Tryte) {k d : Nat} (hk : 0 < k) (hd : d ≤ 8) :
    (aluShiftRight (aluShiftRight a k) (-k)).digit d = if d < k then .zero else a.digit d := by
  rw [digit_aluShiftRight_neg _ (by omega) hd, neg_neg, Int.toNat_natCast]
  by_cases hdk : d < k
  · rw [if_neg (by omega), if_pos hdk]
  · rw [if_pos (by omega), if_neg hdk, digit_aluShiftRight_nonneg a (by omega) (by omega),
      Int.toNat_natCast, Nat.sub_add_cancel (by omega)]

/-- Settles O7: the general law of shifting there and back at three; the second shift pops zeros. -/
theorem shiftRightThreeLeftThree : Obligations.ShiftRightThreeLeftThree :=
  ⟨fun a _ _ hd => ⟨digit_aluShiftRight_neg_aluShiftRight a (k := 3) (by decide) hd, rfl, rfl⟩,
    by decide, by decide⟩

/-! ### Shifts of values -/

theorem upTrit_upTrit_upTrit (t : Trit) : upTrit (upTrit (upTrit t)) = t := by cases t <;> rfl

/-- One count more is one transform up more: three of them are none. -/
theorem aluShiftUp_add_one (a : Tryte) (n : Int) :
    aluShiftUp a (n + 1) = aluShiftUp (a.map upTrit) n := by
  have hmod : n % 3 = 0 ∨ n % 3 = 1 ∨ n % 3 = 2 := by omega
  rcases hmod with h | h | h
  · have h' : (n + 1) % 3 = 1 := by omega
    simp [aluShiftUp, h, h']
  · have h' : (n + 1) % 3 = 2 := by omega
    simp [aluShiftUp, h, h', Tryte.map_map]
  · have h' : (n + 1) % 3 = 0 := by omega
    simp [aluShiftUp, h, h', Tryte.map_map, upTrit_upTrit_upTrit, Tryte.map_id']

/-- One count less is one transform down more. -/
theorem aluShiftUp_sub_one (a : Tryte) (n : Int) :
    aluShiftUp a (n - 1) = aluShiftUp (a.map downTrit) n := by
  have hup : (a.map downTrit).map upTrit = a := by
    simp only [Tryte.map_map, upTrit_downTrit, Tryte.map_id']
  rw [← sub_add_cancel n 1, aluShiftUp_add_one, hup, add_sub_cancel_right]

theorem aluShiftUp_natCast (a : Tryte) (k : Nat) : aluShiftUp a k = valueLoop upTrit k a := by
  induction k generalizing a with
  | zero => rfl
  | succ k ih => rw [Nat.cast_succ, aluShiftUp_add_one, ih, valueLoop]

theorem aluShiftUp_neg_natCast (a : Tryte) (k : Nat) :
    aluShiftUp a (-k) = valueLoop downTrit k a := by
  induction k generalizing a with
  | zero => rfl
  | succ k ih => rw [Nat.cast_succ, neg_add', aluShiftUp_sub_one, ih, valueLoop]

/-- Settles O8: a count is a natural number or the negative of one. -/
theorem valueShiftIsRepeatedTransform : Obligations.ValueShiftIsRepeatedTransform := by
  intro a n
  split
  next h => rw [← aluShiftUp_natCast, Int.toNat_of_nonneg h]
  next h => rw [← aluShiftUp_neg_natCast, Int.toNat_of_nonneg (by omega), neg_neg]

/-! ### Decimals -/

/-- One digit of a non-zero magnitude and the magnitude that remains (40_trit_tryte_alu.md R114). -/
theorem decimalDigits_succ {m : Nat} (k : Nat) (h : m ≠ 0) :
    ∃ (t : Trit) (q : Nat), decimalDigits (k + 1) m = t :: decimalDigits k q ∧
      (m : Int) = t.toInt + 3 * q := by
  rw [decimalDigits, if_neg h]
  split
  · exact ⟨.neg, _, rfl, by simp only [Trit.toInt]; omega⟩
  split
  · exact ⟨.pos, _, rfl, by simp only [Trit.toInt]; omega⟩
  · exact ⟨.zero, _, rfl, by simp only [Trit.toInt]; omega⟩

/-- The k digits produced leave out a multiple of the next digit's weight. -/
theorem lowValue_decimalDigits (k m : Nat) :
    ∃ q : Int, (m : Int) = lowValue (fun d => (decimalDigits k m).getD d .zero) k + 3 ^ k * q := by
  induction k generalizing m with
  | zero => exact ⟨m, by simp [lowValue_zero]⟩
  | succ k ih =>
    by_cases hm : m = 0
    · exact ⟨0, by simp [hm, decimalDigits, lowValue, Trit.toInt]⟩
    · obtain ⟨t, r, hdigits, hmr⟩ := decimalDigits_succ k hm
      obtain ⟨q, hq⟩ := ih r
      refine ⟨q, ?_⟩
      simp only [hdigits, lowValue_succ', List.getD_cons_zero, List.getD_cons_succ]
      rw [hmr]
      linear_combination 3 * hq

theorem toInt_map_negTrit (a : Tryte) : (a.map negTrit).toInt = -a.toInt := by
  simp only [Tryte.map, Tryte.toInt, negTrit_toInt]
  ring

/-- Nine digits of a magnitude make it up to a multiple of 19683 (40_trit_tryte_alu.md R114). -/
theorem tryteOfDigits_decimalDigits_congr (m : Nat) :
    ∃ q : Int, (m : Int) = (tryteOfDigits (decimalDigits 9 m)).toInt + 19683 * q := by
  rw [tryteOfDigits, toInt_ofDigits_eq_lowValue]
  exact lowValue_decimalDigits 9 m

theorem tryteFromDecimal_eq_ofInt (n : Int) : tryteFromDecimal n = Tryte.ofInt n := by
  obtain ⟨q, hq⟩ := tryteOfDigits_decimalDigits_congr n.natAbs
  rw [Tryte.eq_ofInt_iff, eq_comm, tryteFromDecimal]
  split
  next hneg =>
    exact wrap_unique (k := -q) (by rw [toInt_map_negTrit]; omega) (Tryte.toInt_bounds _)
  next hnonneg => exact wrap_unique (k := q) (by omega) (Tryte.toInt_bounds _)

theorem toInt_tryteFromDecimal {n : Int} (h : -9841 ≤ n ∧ n ≤ 9841) :
    (tryteFromDecimal n).toInt = n := by
  rw [tryteFromDecimal_eq_ofInt, Tryte.toInt_ofInt_of_range h]

/-- Settles O1: the digits kept are congruent to n, and a tryte's value is in range. -/
theorem decimalConversionKeepsNineDigits : Obligations.DecimalConversionKeepsNineDigits :=
  fun n => ⟨tryteFromDecimal_eq_ofInt n, fun hlow hhigh => toInt_tryteFromDecimal ⟨hlow, hhigh⟩⟩

/-! ### Strings -/

/-- A tryte's trits, most significant first. -/
def tritsOfTryte (t : Tryte) : List Trit := [t.d8, t.d7, t.d6, t.d5, t.d4, t.d3, t.d2, t.d1, t.d0]

theorem stringFromTryte_eq_map (t : Tryte) :
    stringFromTryte t = (tritsOfTryte t).map glyphOfTrit := rfl

theorem tryteOfDigits_reverse_tritsOfTryte (t : Tryte) :
    tryteOfDigits (tritsOfTryte t).reverse = t := rfl

/-- Nine trits are the trits of a tryte. -/
theorem exists_tritsOfTryte_eq : ∀ {ts : List Trit}, ts.length = 9 → ∃ t, tritsOfTryte t = ts
  | [d8, d7, d6, d5, d4, d3, d2, d1, d0], _ => ⟨⟨d8, d7, d6, d5, d4, d3, d2, d1, d0⟩, rfl⟩

theorem tritOfGlyph_glyphOfTrit (t : Trit) : tritOfGlyph (glyphOfTrit t) = some t := by
  cases t <;> rfl

/-- Glyphs are read back one by one. -/
theorem mapM_tritOfGlyph_map (ts : List Trit) :
    (ts.map glyphOfTrit).mapM tritOfGlyph = some ts := by
  induction ts with
  | nil => rfl
  | cons t ts ih => simp [tritOfGlyph_glyphOfTrit, ih]

theorem isDecimalDigit_glyphOfTrit (t : Trit) : isDecimalDigit (glyphOfTrit t) = false := by
  cases t <;> rfl

/-- No glyph is a decimal digit. -/
theorem parseNat_map_glyphOfTrit (ts : List Trit) : parseNat (ts.map glyphOfTrit) = none := by
  cases ts with
  | nil => rfl
  | cons t ts => simp [parseNat, isDecimalDigit_glyphOfTrit]

/-- A string of glyphs never parses as a decimal, with its first glyph read as a sign or not
(40_trit_tryte_alu.md R116). -/
theorem parseDecimal_map_glyphOfTrit (ts : List Trit) :
    parseDecimal (ts.map glyphOfTrit) = none := by
  cases ts with
  | nil => rfl
  | cons t ts =>
    cases t with
    | neg | pos => simp [glyphOfTrit, parseDecimal, parseNat_map_glyphOfTrit]
    | zero =>
      exact congrArg (Option.map fun n : Nat => (n : Int)) (parseNat_map_glyphOfTrit (.zero :: ts))

theorem tryteFromString_stringFromTryte (t : Tryte) :
    tryteFromString (stringFromTryte t) = some t := by
  rw [stringFromTryte_eq_map, tryteFromString, parseDecimal_map_glyphOfTrit, parseGlyphs,
    mapM_tritOfGlyph_map]
  exact congrArg some (tryteOfDigits_reverse_tritsOfTryte t)

/-- A string of glyphs is the string of some trits. -/
theorem exists_map_glyphOfTrit_eq {s : List Char} (h : ∀ c ∈ s, c = '+' ∨ c = 'o' ∨ c = '-') :
    ∃ ts : List Trit, ts.map glyphOfTrit = s := by
  induction s with
  | nil => exact ⟨[], rfl⟩
  | cons c s ih =>
    obtain ⟨hc, hs⟩ := List.forall_mem_cons.1 h
    obtain ⟨ts, rfl⟩ := ih hs
    rcases hc with rfl | rfl | rfl
    · exact ⟨.pos :: ts, rfl⟩
    · exact ⟨.zero :: ts, rfl⟩
    · exact ⟨.neg :: ts, rfl⟩

/-- Every string of nine glyphs is the string of a tryte. -/
theorem exists_stringFromTryte_eq {s : List Char} (hlength : s.length = 9)
    (h : ∀ c ∈ s, c = '+' ∨ c = 'o' ∨ c = '-') : ∃ t, stringFromTryte t = s := by
  obtain ⟨ts, rfl⟩ := exists_map_glyphOfTrit_eq h
  rw [List.length_map] at hlength
  obtain ⟨t, rfl⟩ := exists_tritsOfTryte_eq hlength
  exact ⟨t, rfl⟩

/-- Settles O2: a string of nine glyphs is a tryte's, which is what it reads as. -/
theorem stringsAndDecimalsRoundTrip : Obligations.StringsAndDecimalsRoundTrip := by
  refine ⟨fun _ => rfl, tryteFromString_stringFromTryte, fun s hlength hglyphs => ?_,
    fun _ hlow hhigh => toInt_tryteFromDecimal ⟨hlow, hhigh⟩⟩
  obtain ⟨t, rfl⟩ := exists_stringFromTryte_eq hlength hglyphs
  exact ⟨t, tryteFromString_stringFromTryte t, rfl⟩

end Sys2Proof.Machine
end

section
/-! PROOF. The step (41_cpu_step.md): what the fetch delivers, how a cycle ends, what one
instruction can change at most, and the driver's ticks. -/

namespace Sys2Proof.Machine

/-! ### The pc passes what is fetched -/

/-- Sums wrapped one after another are the whole sum wrapped once (00_scope.md R14). -/
theorem ofInt_toInt_ofInt_add (n m : Int) :
    Tryte.ofInt ((Tryte.ofInt n).toInt + m) = Tryte.ofInt (n + m) := by
  rw [Tryte.eq_ofInt_iff, Tryte.toInt_ofInt, Tryte.toInt_ofInt]
  unfold wrap
  omega

/-- One increment of the pc, wrapping (10_state.md R25). -/
theorem advancePc_pc_eq_ofInt (s : State) : s.advancePc.pc = Tryte.ofInt (s.pc.toInt + 1) := by
  obtain ⟨-, -, -, hsum, -⟩ := addObeysNumericLaw s.pc (Tryte.ofInt 1) false s.ci
  rw [State.advancePc_pc, hsum, Tryte.toInt_ofInt_of_range (by decide)]
  exact congrArg Tryte.ofInt (add_zero _)

/-- Two increments of the pc. -/
theorem advancePc_advancePc_pc_eq_ofInt (s : State) :
    s.advancePc.advancePc.pc = Tryte.ofInt (s.pc.toInt + 2) := by
  rw [advancePc_pc_eq_ofInt, advancePc_pc_eq_ofInt, ofInt_toInt_ofInt_add, add_assoc]
  rfl

/-- The fetched pc is past one tryte, or two in WI mode (41_cpu_step.md R151, R153). -/
theorem fetch_state_pc (s : State) :
    s.fetch.state.pc =
      Tryte.ofInt (s.pc.toInt + if modeField (s.memRead s.pc) = .wi then 2 else 1) := by
  rw [fetch_state]
  split
  · exact advancePc_advancePc_pc_eq_ofInt s
  · exact advancePc_pc_eq_ofInt s

/-- The fetch writes the pc and the hidden carry alone (10_state.md R27). -/
theorem fetch_state_eq (s : State) :
    s.fetch.state = { s with pc := s.fetch.state.pc, ci := s.fetch.state.ci } := by
  rw [fetch_state]
  split <;> rfl

/-- Settles O14, field by field of what the fetch delivers. -/
theorem fetchPassesTheInstruction : Obligations.FetchPassesTheInstruction := by
  intro s wide
  refine ⟨fetch_address s, fetch_word s, ?_, fetch_state_pc s, s.fetch.state.ci, fetch_state_eq s⟩
  rw [fetch_z, advancePc_pc_eq_ofInt]

/-! ### How a step ends -/

theorem step_eq_cycle {s : State} (h : s.steppable) : step s = cycle s := by
  rcases h with h | h | h <;> exact step_of_steppable (by simp [h]) (by simp [h])

/-- Settles O15: a steppable core runs a cycle, which ends in the decoded instruction. -/
theorem stepRunsDecodedInstruction : Obligations.StepRunsDecodedInstruction :=
  fun _ _ hsteppable hdecode => (step_eq_cycle hsteppable).trans (cycle_of_decode hdecode)

/-- A cycle whose word's opcode names no instruction halts on the fetched state (41_cpu_step.md
R158). -/
theorem cycle_of_unassigned {s : State}
    (h : ∀ m : Mnemonic, Config.opc m ≠ opcodeField (s.memRead s.pc)) :
    cycle s = .next (s.fetch.state.raiseHalt .unknownOpcode s.pc (s.memRead s.pc)) := by
  rcases cycle_cases s with ⟨m, x, op, hm, -, -⟩ | ⟨-, hcycle⟩
  · rw [fetch_word, mnemonicOfOpcode_eq_some_iff] at hm
    exact absurd hm (h m)
  · rwa [fetch_address, fetch_word] at hcycle

/-- Settles O16: the halt is raised on the fetched state; both keep registers, cells and carry. -/
theorem unknownOpcodeHalts : Obligations.UnknownOpcodeHalts := by
  intro s hsteppable hunassigned
  refine ⟨_, (step_eq_cycle hsteppable).trans (cycle_of_unassigned hunassigned), rfl, ?_,
    fetch_state_pc s, fun r => State.readReg_congr ?_ r, fun a => State.memRead_congr ?_ a, ?_, ?_⟩
  · rw [State.raiseHalt_trace, fetch_state_trace]
  · rw [State.raiseHalt_regs, fetch_state_regs]
  · rw [State.raiseHalt_mem, fetch_state_mem]
  · rw [State.raiseHalt_carry, fetch_state_carry]
  · rw [State.raiseHalt_watchers, fetch_state_watchers]

/-- Settles O17, by the run states that R162 names. -/
theorem unloadedRefusesHaltedRests : Obligations.UnloadedRefusesHaltedRests :=
  ⟨fun _ => step_of_unloaded, fun _ => step_of_halted⟩

/-- Both ends of a cycle are next states (60_exceptions.md R294). -/
theorem cycle_next (s : State) : ∃ t, cycle s = .next t := by
  rcases cycle_cases s with ⟨m, x, op, -, -, hcycle⟩ | ⟨-, hcycle⟩
  · obtain ⟨t, hexec, -⟩ := exec_next (m.instr x op) s.fetch.state
    exact ⟨t, hcycle.trans hexec⟩
  · exact ⟨_, hcycle⟩

/-- Settles O18: a Halted core rests, every other attached core runs a cycle. -/
theorem attachedCoreAlwaysSteps : Obligations.AttachedCoreAlwaysSteps := by
  intro s hunloaded
  by_cases hhalted : s.run = .halted
  · exact ⟨s, step_of_halted hhalted⟩
  · rw [step_of_steppable hunloaded hhalted]
    exact cycle_next s

/-! ### What one instruction can change at most -/

/-- A branch with a target. -/
theorem PcFrame.branchIf_wi (holds : Int → Int → Bool) (x y : Reg) (z : Tryte) (s : State) :
    PcFrame s (branchIf holds x (.wi y z) s) := by
  simp only [branchIf]
  split
  · exact .setPc s z
  · exact .refl s

/-- The register write of LDO. -/
theorem RegFrame.writeReg (x : Reg) (v : Tryte) (s : State) : RegFrame x s (s.writeReg x v) where
  regs _ h := State.readReg_writeReg_other s v h
  mem _ := rfl
  pc := rfl
  trace := rfl
  host := ⟨rfl, rfl, rfl⟩

/-- From s to t at most this changed: one register, one cell, the carry and the pc where they may be
written, CI, the run state, and the trace at its end. -/
structure Within (register : Option Reg) (address : Option Tryte) (carry pc : Bool)
    (s t : State) : Prop where
  regs : ∀ r, register ≠ some r → t.readReg r = s.readReg r
  mem : ∀ a, address ≠ some a → t.memRead a = s.memRead a
  carry : carry = false → t.carry = s.carry
  pc : pc = false → t.pc = s.pc
  watchers : t.watchers = s.watchers
  draws : t.draws = s.draws
  trace : ∃ es, t.trace = s.trace ++ es

/-- The change that an instruction's own footprint allows (41_cpu_step.md R161). -/
abbrev Footprint (i : Instr) (s t : State) : Prop :=
  Within (destination i) (storeAddress i s) (writesCarry i s) (transfersControl i) s t

section
variable {register : Option Reg} {address : Option Tryte} {carry pc : Bool} {s t : State}

/-- An instruction that writes register x; what it does to the carry is left to say. -/
theorem RegFrame.within {x : Reg} (h : RegFrame x s t)
    (hcarry : carry = false → t.carry = s.carry) :
    Within (some x) address carry pc s t := by
  obtain ⟨hwatchers, -, hdraws⟩ := h.host
  exact ⟨fun r hr => h.regs r fun e => hr (congrArg some e.symm), fun a _ => h.mem a, hcarry,
    fun _ => h.pc, hwatchers, hdraws, [], by rw [h.trace, List.append_nil]⟩

/-- An instruction that writes the pc at most, and may. -/
theorem PcFrame.within (h : PcFrame s t) : Within register address carry true s t := by
  obtain ⟨hwatchers, -, hdraws⟩ := h.host
  exact ⟨fun r _ => h.regs r, fun a _ => h.mem a, fun _ => h.carry, Bool.noConfusion,
    hwatchers, hdraws, [], by rw [h.trace, List.append_nil]⟩

/-- An instruction that stores to address a. -/
theorem StoreFrame.within {a : Tryte} (h : StoreFrame a s t) {es : List Event}
    (htrace : t.trace = s.trace ++ es) : Within register (some a) carry pc s t := by
  obtain ⟨hwatchers, -, hdraws⟩ := h.host
  exact ⟨fun r _ => h.regs r, fun b hb => h.mem b fun e => hb (congrArg some e.symm),
    fun _ => h.carry, fun _ => h.pc, hwatchers, hdraws, es, htrace⟩

theorem Within.reportMissingOperand (s : State) :
    Within register address carry pc s s.reportMissingOperand :=
  ⟨fun _ _ => rfl, fun _ _ => rfl, fun _ => rfl, fun _ => rfl, rfl, rfl, _, rfl⟩

theorem Within.haltIn (s : State) (cause : HaltCause) (i : Instr) :
    Within register address carry pc s (s.haltIn cause i) :=
  ⟨fun _ _ => rfl, fun _ _ => rfl, fun _ => rfl, fun _ => rfl, rfl, rfl, _, rfl⟩

theorem Within.applyToX (f : Tryte → Tryte → Tryte) (x : Reg) (op : Operand) (s : State) :
    Within (some x) address carry pc s (applyToX f x op s) := by
  obtain ⟨-, hcarry, -, hframe⟩ := applyToX_frame f x op s
  exact hframe.within fun _ => hcarry

/-- The two-operand shape with the carry written: ADD, ADC, SHR. -/
theorem Within.applyToX_setCarry (f : Tryte → Tryte → Tryte) (x : Reg) (op : Operand) (s : State)
    {c : Trit} (hc : carry = false → c = s.carry) :
    Within (some x) address carry pc s ((Machine.applyToX f x op s).setCarry c) := by
  obtain ⟨-, -, -, hframe⟩ := applyToX_frame f x op s
  exact (hframe.setCarry c).within hc

/-- DIV and MOD: the halt for a zero divisor writes less than the two-operand shape. -/
theorem Within.division (f : Tryte → Tryte → Tryte) (x : Reg) (op : Operand) (i : Instr)
    (s : State) :
    Within (some x) address carry pc s
      (if (op2 op s).toInt = 0 then s.haltIn .divideByZero i else Machine.applyToX f x op s) := by
  split
  · exact .haltIn s _ i
  · exact .applyToX f x op s

theorem Within.store (s : State) (a v : Tryte) (h : s.mem.wf) :
    Within register (some a) carry pc s (s.store a v) :=
  (store_frame s a v h).within ((State.store_trace s a v).trans (List.append_assoc _ _ _))

/-- The addition of LDO and STO changes CI alone, of which a footprint does not speak. -/
theorem Within.of_addressed {b o : Tryte}
    (h : Within register address carry pc (s.addressed b o) t) :
    Within register address carry pc s t :=
  ⟨h.regs, h.mem, h.carry, h.pc, h.watchers, h.draws, h.trace⟩

/-- JAL writes ra and the pc. -/
theorem Within.jal (s : State) (v target : Tryte) :
    Within (some .ra) address carry true s ((s.writeReg .ra v).setPc target) :=
  { (RegFrame.writeReg .ra v s).within (pc := true) fun _ => rfl with pc := Bool.noConfusion }

end

/-- A shift by zero leaves the carry (43_logic_shift.md R195). -/
theorem carryShift_zero (a : Tryte) (C : Trit) : carryShift a 0 C = C := if_pos rfl

/-- Where SHR is said to write no carry its count is zero, and the carry stays. -/
theorem carryShift_of_not_writesCarry {x : Reg} {op : Operand} {s : State}
    (h : writesCarry (.shr x op) s = false) (a : Tryte) :
    carryShift a (op2 op s).toInt s.carry = s.carry := by
  have hcount : (op2 op s).toInt = 0 := by simpa [writesCarry] using h
  rw [hcount, carryShift_zero]

/-- Every instruction stays within its footprint. -/
theorem exec_footprint (i : Instr) (s : State) (hwf : s.mem.wf) :
    ∃ t, exec i s = .next t ∧ Footprint i s t := by
  cases i with
  | add x op | adc x op => exact ⟨_, rfl, .applyToX_setCarry _ x op s Bool.noConfusion⟩
  | shr x op =>
    exact ⟨_, rfl, .applyToX_setCarry _ x op s fun h => carryShift_of_not_writesCarry h _⟩
  | div x op | mod x op => exact ⟨_, rfl, .division _ x op _ s⟩
  | mul x op | neg x op | min x op | max x op | xor x op | con x op | any x op | shu x op
  | mov x op | lda x op => exact ⟨_, rfl, .applyToX _ x op s⟩
  | sta x op => exact ⟨_, rfl, .store s _ _ hwf⟩
  | ldo x op =>
    cases op with
    | rr y | si n => exact ⟨_, rfl, .reportMissingOperand s⟩
    | wi y z => exact ⟨_, rfl, ((RegFrame.writeReg x _ _).within fun _ => rfl).of_addressed⟩
  | sto x op =>
    cases op with
    | rr y | si n => exact ⟨_, rfl, .reportMissingOperand s⟩
    | wi y z => exact ⟨_, rfl, (Within.store (s.addressed _ z) _ _ hwf).of_addressed⟩
  | jeq x op | jne x op | jgt x op | jlt x op | jge x op | jle x op =>
    cases op with
    | rr y | si n => exact ⟨_, rfl, .reportMissingOperand s⟩
    | wi y z => exact ⟨_, rfl, (PcFrame.branchIf_wi _ x y z s).within⟩
  | jmp x op => exact ⟨_, rfl, (PcFrame.setPc s _).within⟩
  | jal x op => exact ⟨_, rfl, .jal s _ _⟩

/-- Settles O22: every instruction's one next state is within its footprint. -/
theorem instructionFootprint : Obligations.InstructionFootprint := by
  intro i s t hwf hexec
  obtain ⟨u, hu, hwithin⟩ := exec_footprint i s hwf
  obtain rfl : u = t := Host.Outcome.next.inj (hu.symm.trans hexec)
  exact ⟨hwithin.regs, hwithin.mem, hwithin.carry, hwithin.pc, hwithin.watchers, hwithin.draws,
    hwithin.trace⟩

/-! ### The driver's ticks -/

/-- One thing done after another: a fault or a refusal ends both. -/
def andThen (o : Host.Outcome State Fault Refusal) (f : State → Host.Outcome State Fault Refusal) :
    Host.Outcome State Fault Refusal :=
  match o with
  | .next t => f t
  | .fault r => .fault r
  | .refused r => .refused r

theorem andThen_assoc (o : Host.Outcome State Fault Refusal)
    (f g : State → Host.Outcome State Fault Refusal) :
    andThen (andThen o f) g = andThen o fun t => andThen (f t) g := by
  cases o <;> rfl

theorem driverSteps_succ (k : Nat) (s : State) :
    driverSteps (k + 1) s = andThen (driverStep s) (driverSteps k) := by
  simp only [driverSteps]
  cases driverStep s <;> rfl

theorem ticks_succ (k : Nat) (s : State) :
    ticks (k + 1) s = andThen (tick s) (ticks k) := by
  simp only [ticks]
  cases tick s <;> rfl

/-- m + n calls of the driver are m calls and then n. -/
theorem driverSteps_add (m n : Nat) (s : State) :
    driverSteps (m + n) s = andThen (driverSteps m s) (driverSteps n) := by
  induction m generalizing s with
  | zero => rw [Nat.zero_add]; rfl
  | succ m ih =>
    calc driverSteps (m + 1 + n) s
        = andThen (driverStep s) (driverSteps (m + n)) := by
          rw [Nat.add_right_comm, driverSteps_succ]
      _ = andThen (driverStep s) fun t => andThen (driverSteps m t) (driverSteps n) := by
          rw [funext ih]
      _ = andThen (driverSteps (m + 1) s) (driverSteps n) := by
          rw [driverSteps_succ, andThen_assoc]

/-- Settles O58, by induction on the number of ticks. -/
theorem ticksAreConsecutiveSteps : Obligations.TicksAreConsecutiveSteps := by
  intro k
  induction k with
  | zero => intro s; rw [Nat.zero_mul]; rfl
  | succ k ih =>
    intro s
    calc ticks (k + 1) s
        = andThen (driverSteps Config.stepsPerTick s) (driverSteps (k * Config.stepsPerTick)) := by
          rw [ticks_succ, funext ih]; rfl
      _ = driverSteps ((k + 1) * Config.stepsPerTick) s := by
          rw [← driverSteps_add, Nat.succ_mul, Nat.add_comm]

end Sys2Proof.Machine
end

section
/-! PROOF. The arithmetic instructions (42_arithmetic.md): what ADD, ADC, MUL, DIV, MOD and NEG
leave in x and in the carry, the fatal halt of a division by zero, and the sequences of R176 and R177. -/

namespace Sys2Proof.Machine

/-! ### An instruction's result in register x -/

/-- From s to t register x took the value v and the carry became c; nothing else changed. -/
structure RegResult (x : Reg) (v : Tryte) (c : Trit) (s t : State) : Prop where
  value : t.readReg x = v
  carry : t.carry = c
  frame : RegFrame x s t
  ci : t.ci = s.ci

theorem RegResult.applyToX (f : Tryte → Tryte → Tryte) (x : Reg) (op : Operand) (s : State) :
    RegResult x (f (s.readReg x) (op2 op s)) s.carry s (applyToX f x op s) := by
  obtain ⟨hvalue, hcarry, hci, hframe⟩ := applyToX_frame f x op s
  exact ⟨hvalue, hcarry, hframe, hci⟩

theorem RegResult.setCarry {x : Reg} {v : Tryte} {c : Trit} {s t : State}
    (h : RegResult x v c s t) (d : Trit) : RegResult x v d s (t.setCarry d) :=
  ⟨h.value, rfl, h.frame.setCarry d, h.ci⟩

theorem RegResult.readReg_other {x r : Reg} {v : Tryte} {c : Trit} {s t : State}
    (h : RegResult x v c s t) (hr : r ≠ x) : t.readReg r = s.readReg r := h.frame.regs r hr

/-! ### Sums -/

/-- A fresh add: the wrapped sum and its carry (40_trit_tryte_alu.md R120). -/
theorem aluAdd_fresh (a b : Tryte) (C : Trit) :
    aluAdd a b false C = (.ofInt (a.toInt + b.toInt), carryOfSum (a.toInt + b.toInt)) := by
  obtain ⟨-, -, -, hsum, hcarry⟩ := addObeysNumericLaw a b false C
  rw [if_neg Bool.false_ne_true, add_zero] at hsum hcarry
  exact Prod.ext hsum hcarry

/-- A chained add: the old carry is in the sum (40_trit_tryte_alu.md R120). -/
theorem aluAdd_chained (a b : Tryte) (C : Trit) :
    aluAdd a b true C =
      (.ofInt (a.toInt + b.toInt + C.toInt), carryOfSum (a.toInt + b.toInt + C.toInt)) := by
  obtain ⟨-, -, -, hsum, hcarry⟩ := addObeysNumericLaw a b true C
  exact Prod.ext hsum hcarry

/-- The result of ADD and ADC: an addition of the ALU, its carry in C. -/
abbrev SumResult (x : Reg) (r : Tryte × Trit) (s t : State) : Prop := RegResult x r.1 r.2 s t

theorem exec_add (x : Reg) (op : Operand) (s : State) :
    ∃ t, exec (.add x op) s = .next t ∧
      SumResult x (aluAdd (s.readReg x) (op2 op s) false s.carry) s t :=
  ⟨_, rfl, (RegResult.applyToX (fun a b => (aluAdd a b false s.carry).1) x op s).setCarry _⟩

theorem exec_adc (x : Reg) (op : Operand) (s : State) :
    ∃ t, exec (.adc x op) s = .next t ∧
      SumResult x (aluAdd (s.readReg x) (op2 op s) true s.carry) s t :=
  ⟨_, rfl, (RegResult.applyToX (fun a b => (aluAdd a b true s.carry).1) x op s).setCarry _⟩

/-- Settles O26: the fresh add of the ALU, by its numeric law. -/
theorem addResult : Obligations.AddResult := by
  refine ⟨rfl, fun x op s => ?_⟩
  obtain ⟨t, hexec, hresult⟩ := exec_add x op s
  rw [aluAdd_fresh] at hresult
  exact ⟨t, hexec, hresult.value, hresult.carry, hresult.frame, hresult.ci⟩

/-- Settles O27: the chained add of the ALU, by its numeric law. -/
theorem adcResult : Obligations.AdcResult := by
  refine ⟨rfl, fun x op s => ?_⟩
  obtain ⟨t, hexec, hresult⟩ := exec_adc x op s
  rw [aluAdd_chained] at hresult
  exact ⟨t, hexec, hresult.value, hresult.carry, hresult.frame, hresult.ci⟩

/-- The sum and the carry of an addition lose nothing (40_trit_tryte_alu.md R120). -/
theorem RegResult.sum_exact {x : Reg} {a b : Tryte} {withCarry : Bool} {C : Trit} {s t : State}
    (h : SumResult x (aluAdd a b withCarry C) s t) :
    (t.readReg x).toInt + 19683 * t.carry.toInt =
      a.toInt + b.toInt + (if withCarry then C else .zero : Trit).toInt := by
  rw [h.value, h.carry, aluAdd_exact]

/-- Settles O34: both sums are exact, and the carry of the low one is an addend of the high one. -/
theorem addThenAdcAddsTwoTryteNumbers : Obligations.AddThenAdcAddsTwoTryteNumbers := by
  intro lo hi lo' hi' s hhi hhi'
  obtain ⟨t, hadd, hlow⟩ := exec_add lo (.rr lo') s
  obtain ⟨u, hadc, hhigh⟩ := exec_adc hi (.rr hi') t
  refine ⟨t, u, hadd, hadc, ?_⟩
  have hlowSum : (t.readReg lo).toInt + 19683 * t.carry.toInt =
      (s.readReg lo).toInt + (s.readReg lo').toInt + 0 := hlow.sum_exact
  have hhighSum : (u.readReg hi).toInt + 19683 * u.carry.toInt =
      (t.readReg hi).toInt + (t.readReg hi').toInt + t.carry.toInt := hhigh.sum_exact
  rw [hlow.readReg_other hhi, hlow.readReg_other hhi'] at hhighSum
  rw [hhigh.readReg_other hhi.symm]
  linear_combination hlowSum + 19683 * hhighSum

/-! ### Negation, and subtraction by it -/

theorem exec_neg (x : Reg) (op : Operand) (s : State) :
    ∃ t, exec (.neg x op) s = .next t ∧ RegResult x (aluNeg (op2 op s)) s.carry s t :=
  ⟨_, rfl, RegResult.applyToX (fun _ b => aluNeg b) x op s⟩

/-- Settles O33: negating every digit negates the value. -/
theorem negResult : Obligations.NegResult := by
  refine ⟨rfl, fun x op s => ?_⟩
  obtain ⟨t, hexec, hresult⟩ := exec_neg x op s
  refine ⟨t, hexec, ?_, fun d hd => ?_, hresult.carry, hresult.frame, hresult.ci⟩
  · rw [hresult.value, aluNeg, toInt_map_negTrit]
  · rw [hresult.value, aluNeg, Tryte.digit_map _ _ hd, negTrit_toInt]

/-- Settles O35: the ADD finds a as it was and minus b in the temporary register. -/
theorem negThenAddSubtracts : Obligations.NegThenAddSubtracts := by
  intro a b tmp s htmp
  obtain ⟨t, hneg, hnegResult⟩ := exec_neg tmp (.rr b) s
  obtain ⟨u, hadd, haddResult⟩ := exec_add a (.rr tmp) t
  refine ⟨t, u, hneg, hadd, ?_⟩
  have hminus : (op2 (.rr tmp) t).toInt = -(s.readReg b).toInt :=
    (congrArg Tryte.toInt hnegResult.value).trans (toInt_map_negTrit _)
  rw [haddResult.value, aluAdd_fresh, hnegResult.readReg_other htmp.symm, hminus, ← sub_eq_add_neg]

/-! ### Multiplication -/

/-- Settles O28: the two-operand shape with the wrapped product. -/
theorem mulResult : Obligations.MulResult := by
  refine ⟨rfl, fun x op s => ?_⟩
  have hresult := RegResult.applyToX aluMultiply x op s
  refine ⟨_, rfl, hresult.value, fun hlow hhigh => ?_, hresult.carry, hresult.frame, hresult.ci⟩
  rw [hresult.value, aluMultiply, Tryte.toInt_ofInt_of_range ⟨hlow, hhigh⟩]

/-! ### Division -/

/-- What is no larger than a tryte's value is in range. -/
theorem toInt_ofInt_of_natAbs_le {n : Int} {w : Tryte} (h : n.natAbs ≤ w.toInt.natAbs) :
    (Tryte.ofInt n).toInt = n := by
  have hw := w.toInt_bounds
  exact Tryte.toInt_ofInt_of_range (by omega)

/-- No quotient overflows (42_arithmetic.md R173). -/
theorem aluDivide_toInt (a b : Tryte) : (aluDivide a b).toInt = a.toInt.tdiv b.toInt :=
  toInt_ofInt_of_natAbs_le (Int.natAbs_tdiv_le_natAbs _ _)

/-- No remainder overflows (42_arithmetic.md R174). -/
theorem aluModulo_toInt (a b : Tryte) : (aluModulo a b).toInt = a.toInt.tmod b.toInt := by
  rw [aluModulo, ← Int.tmod_def]
  exact toInt_ofInt_of_natAbs_le (by rw [Int.natAbs_tmod]; exact Nat.mod_le _ _)

section
variable {x : Reg} {op : Operand} {s : State}

theorem exec_div_of_ne_zero (h : (op2 op s).toInt ≠ 0) :
    ∃ t, exec (.div x op) s = .next t ∧
      RegResult x (aluDivide (s.readReg x) (op2 op s)) s.carry s t :=
  ⟨_, congrArg Host.Outcome.next (if_neg h), RegResult.applyToX _ x op s⟩

theorem exec_mod_of_ne_zero (h : (op2 op s).toInt ≠ 0) :
    ∃ t, exec (.mod x op) s = .next t ∧
      RegResult x (aluModulo (s.readReg x) (op2 op s)) s.carry s t :=
  ⟨_, congrArg Host.Outcome.next (if_neg h), RegResult.applyToX _ x op s⟩

theorem exec_div_of_zero (h : (op2 op s).toInt = 0) :
    exec (.div x op) s = .next (s.haltIn .divideByZero (.div x op)) :=
  congrArg Host.Outcome.next (if_pos h)

theorem exec_mod_of_zero (h : (op2 op s).toInt = 0) :
    exec (.mod x op) s = .next (s.haltIn .divideByZero (.mod x op)) :=
  congrArg Host.Outcome.next (if_pos h)

end

/-- Settles O29, by whether the divisor is zero. -/
theorem divResult : Obligations.DivResult := by
  refine ⟨rfl, fun x op s => ⟨fun hdivisor => ?_, fun hzero => ⟨_, _, exec_div_of_zero hzero⟩⟩⟩
  obtain ⟨t, hexec, hresult⟩ := exec_div_of_ne_zero (x := x) hdivisor
  refine ⟨t, hexec, ?_, hresult.carry, hresult.frame, hresult.ci⟩
  rw [hresult.value, aluDivide_toInt]

/-- Settles O30, by whether the divisor is zero. -/
theorem modResult : Obligations.ModResult := by
  refine ⟨rfl, fun x op s => ⟨fun hdivisor => ?_, fun hzero => ⟨_, _, exec_mod_of_zero hzero⟩⟩⟩
  obtain ⟨t, hexec, hresult⟩ := exec_mod_of_ne_zero (x := x) hdivisor
  refine ⟨t, hexec, ?_, hresult.carry, hresult.frame, hresult.ci⟩
  rw [hresult.value, aluModulo_toInt, Int.tmod_def]

/-- A remainder of truncating division is zero or of the dividend's sign
(40_trit_tryte_alu.md R123). -/
theorem tmod_eq_zero_or_sign_eq (a b : Int) : a.tmod b = 0 ∨ (a.tmod b).sign = a.sign := by
  by_cases hdvd : b ∣ a
  · exact .inl (Int.tmod_eq_zero_of_dvd hdvd)
  · exact .inr (by rw [Int.sign_tmod, if_neg hdvd])

/-- Settles O31: quotient and remainder are those of truncating division, exactly. -/
theorem quotientAndRemainderFit : Obligations.QuotientAndRemainderFit := by
  intro x op s hdivisor
  obtain ⟨t, hdiv, hquotient⟩ := exec_div_of_ne_zero (x := x) hdivisor
  obtain ⟨u, hmod, hremainder⟩ := exec_mod_of_ne_zero (x := x) hdivisor
  refine ⟨t, u, hdiv, hmod, ?_⟩
  rw [hquotient.value, hremainder.value, aluDivide_toInt, aluModulo_toInt]
  refine ⟨(Int.mul_tdiv_add_tmod _ _).symm, ?_, tmod_eq_zero_or_sign_eq _ _⟩
  rw [Int.natAbs_tmod]
  exact Nat.mod_lt _ (Int.natAbs_pos.2 hdivisor)

/-! ### A step that divides by zero -/

/-- The operand is read from the registers alone (41_cpu_step.md R156). -/
theorem op2_of_regs_eq {s t : State} (h : t.regs = s.regs) (op : Operand) :
    op2 op t = op2 op s := by
  cases op with
  | rr y => exact State.readReg_congr h y
  | si n => rfl
  | wi y z => rfl

/-- A step's halt keeps registers, memory and carry, and reports itself (60_exceptions.md R291). -/
theorem raiseHalt_fetch_state_frame (s : State) (cause : HaltCause) (a w : Tryte) :
    let t := s.fetch.state.raiseHalt cause a w
    t.regs = s.regs ∧ t.mem = s.mem ∧ t.carry = s.carry ∧
      t.trace = s.trace ++ [.halt cause a w] :=
  ⟨fetch_state_regs s, fetch_state_mem s, fetch_state_carry s,
    by rw [State.raiseHalt_trace, fetch_state_trace]⟩

section
variable {s : State} {i : Instr}

/-- A fetched instruction's word is the one in memory at the pc. -/
theorem encodeWord_of_fetched (h : decodeWord s.fetch.word s.fetch.z = .ok i) :
    encodeWord i = s.memRead s.pc := by
  obtain ⟨-, hencode⟩ := encodeInvertsDecode _ _ _ (fetch_z_isSome s) h
  rw [encode_eq, fetch_word] at hencode
  exact List.head_eq_of_cons_eq hencode

/-- A fetched instruction's length is what the mode of its word says (30_encoding.md R83). -/
theorem length_of_fetched (h : decodeWord s.fetch.word s.fetch.z = .ok i) :
    i.length = if modeField (s.memRead s.pc) = .wi then 2 else 1 := by
  obtain ⟨-, hencode⟩ := encodeInvertsDecode _ _ _ (fetch_z_isSome s) h
  rw [← encode_length, hencode, fetch_z]
  split <;> rfl

/-- The advanced pc less the instruction's length is the address of its word (60_exceptions.md R292;
log entry 13). -/
theorem ofInt_fetch_state_pc_sub_length (h : decodeWord s.fetch.word s.fetch.z = .ok i) :
    Tryte.ofInt (s.fetch.state.pc.toInt - i.length) = s.pc := by
  have hlength : (i.length : Int) = if modeField (s.memRead s.pc) = .wi then 2 else 1 := by
    rw [length_of_fetched h]
    exact Nat.cast_ite _ _ _
  rw [fetch_state_pc, ← hlength, sub_eq_add_neg, ofInt_toInt_ofInt_add, add_neg_cancel_right,
    Tryte.ofInt_toInt]

/-- The halt of a fetched instruction reports the old pc and the word there
(60_exceptions.md R292). -/
theorem haltIn_of_fetched (cause : HaltCause) (h : decodeWord s.fetch.word s.fetch.z = .ok i) :
    s.fetch.state.haltIn cause i = s.fetch.state.raiseHalt cause s.pc (s.memRead s.pc) := by
  rw [State.haltIn, ofInt_fetch_state_pc_sub_length h, encodeWord_of_fetched h]

/-- A step whose fetched instruction answers with its halt (60_exceptions.md R291, R292). -/
theorem step_of_exec_haltIn {cause : HaltCause} (hsteppable : s.steppable)
    (hdecode : decodeWord s.fetch.word s.fetch.z = .ok i)
    (hexec : exec i s.fetch.state = .next (s.fetch.state.haltIn cause i)) :
    step s = .next (s.fetch.state.raiseHalt cause s.pc (s.memRead s.pc)) := by
  rw [stepRunsDecodedInstruction s i hsteppable hdecode, hexec, haltIn_of_fetched cause hdecode]

end

/-- Settles O32: the fetch leaves the divisor, the halt reports the word and its address, and both
keep registers, cells and carry. -/
theorem divideByZeroStepHalts : Obligations.DivideByZeroStepHalts := by
  intro s x op hsteppable hdecode hzero
  have hdivisor : (op2 op s.fetch.state).toInt = 0 := by
    rw [op2_of_regs_eq (fetch_state_regs s), hzero]
  have hstep : step s =
      .next (s.fetch.state.raiseHalt .divideByZero s.pc (s.memRead s.pc)) := by
    rcases hdecode with hdiv | hmod
    · exact step_of_exec_haltIn hsteppable hdiv (exec_div_of_zero hdivisor)
    · exact step_of_exec_haltIn hsteppable hmod (exec_mod_of_zero hdivisor)
  obtain ⟨hregs, hmem, hcarry, htrace⟩ :=
    raiseHalt_fetch_state_frame s .divideByZero s.pc (s.memRead s.pc)
  exact ⟨_, hstep, rfl, htrace, State.readReg_congr hregs, State.memRead_congr hmem, hcarry⟩

end Sys2Proof.Machine
end

section
/-! PROOF. The tritwise logic and shift instructions (43_logic_shift.md): what MIN, MAX, XOR, CON,
ANY, SHR and SHU leave in x and in the carry. -/

namespace Sys2Proof.Machine

/-! ### Logic, digit by digit -/

/-- An instruction of the two-operand shape that applies one trit function at every digit: a law of
that function is a law of every digit of the result. -/
theorem exec_map2_digitwise {i : Instr} {f : Trit → Trit → Trit} {x : Reg} {op : Operand}
    {s : State} {law : Trit → Trit → Trit → Prop}
    (hexec : exec i s = .next (applyToX (Tryte.map2 f) x op s)) (hlaw : ∀ p q, law p q (f p q)) :
    ∃ t, exec i s = .next t ∧
      (∀ d, d ≤ 8 → law ((s.readReg x).digit d) ((op2 op s).digit d) ((t.readReg x).digit d)) ∧
      t.carry = s.carry ∧ RegFrame x s t ∧ t.ci = s.ci := by
  have hresult := RegResult.applyToX (Tryte.map2 f) x op s
  refine ⟨_, hexec, fun d hd => ?_, hresult.carry, hresult.frame, hresult.ci⟩
  rw [hresult.value, Tryte.digit_map2 _ _ _ hd]
  exact hlaw _ _

/-- A trit is the negation of another exactly when its value is (40_trit_tryte_alu.md R125). -/
theorem eq_negTrit_iff {a b : Trit} : a = negTrit b ↔ a.toInt = -b.toInt := by
  rw [← negTrit_toInt]
  exact ⟨congrArg Trit.toInt, Trit.toInt_inj⟩

/-- The three cases of R194, the second by the values. -/
theorem acceptTrit_eq_ite (p q : Trit) :
    acceptTrit p q = if p = .zero then q else if p.toInt = -q.toInt then .zero else p := by
  simp only [acceptTrit, eq_negTrit_iff]

/-- Settles O36: each instruction's trit function obeys its rule's law. -/
theorem logicResults : Obligations.LogicResults := by
  refine ⟨rfl, rfl, rfl, rfl, rfl, ?_⟩
  intro x op s digitwise
  have of_law (f : Trit → Trit → Trit) {i : Instr} {law : Trit → Trit → Trit → Prop}
      (hexec : exec i s = .next (applyToX (Tryte.map2 f) x op s))
      (hlaw : ∀ p q, law p q (f p q)) : digitwise i law := exec_map2_digitwise hexec hlaw
  -- Opaque, so that unification reads each instruction and its law off the goal.
  clear_value digitwise
  exact ⟨of_law minTrit rfl minTrit_toInt,
    of_law maxTrit rfl maxTrit_toInt,
    of_law xorTrit rfl fun p q => ⟨xorTrit_toInt p q, rfl⟩,
    of_law consensusTrit rfl fun _ _ => rfl,
    of_law acceptTrit rfl fun p q => ⟨acceptTrit_toInt p q, acceptTrit_eq_ite p q⟩⟩

/-! ### Shifts of digits -/

theorem exec_shr (x : Reg) (op : Operand) (s : State) :
    ∃ t, exec (.shr x op) s = .next t ∧
      RegResult x (aluShiftRight (s.readReg x) (op2 op s).toInt)
        (carryShift (s.readReg x) (op2 op s).toInt s.carry) s t :=
  ⟨_, rfl, (RegResult.applyToX (fun a n => aluShiftRight a n.toInt) x op s).setCarry _⟩

/-- Settles O37: value and carry are the two halves of what the loop of pops leaves. -/
theorem shrResult : Obligations.ShrResult := by
  refine ⟨rfl, fun x op s => ?_⟩
  obtain ⟨t, hexec, hresult⟩ := exec_shr x op s
  obtain ⟨hloop, -⟩ := shiftIsLoopOfPops (s.readReg x) (op2 op s).toInt s.carry
  exact ⟨t, hexec, hresult.value.trans (congrArg Prod.fst hloop),
    hresult.carry.trans (congrArg Prod.snd hloop), hresult.frame, hresult.ci⟩

/-! ### Shifts of values -/

/-- A transform applied k times to a tryte is applied k times to every digit. -/
theorem digit_valueLoop (f : Trit → Trit) (k : Nat) (a : Tryte) {d : Nat} (hd : d ≤ 8) :
    (valueLoop f k a).digit d = f^[k] (a.digit d) := by
  induction k generalizing a with
  | zero => rfl
  | succ k ih => rw [valueLoop, ih, Tryte.digit_map f a hd, Function.iterate_succ_apply]

/-- The count matters modulo 3 alone (40_trit_tryte_alu.md R137). -/
theorem aluShiftUp_emod (a : Tryte) (n : Int) : aluShiftUp a (n % 3) = aluShiftUp a n := by
  simp only [aluShiftUp, Int.emod_emod]

theorem digit_aluShiftUp (a : Tryte) (n : Int) {d : Nat} (hd : d ≤ 8) :
    (aluShiftUp a n).digit d = upTrit^[(n % 3).toNat] (a.digit d) := by
  have hcount : ((n % 3).toNat : Int) = n % 3 := Int.toNat_of_nonneg (by omega)
  rw [← aluShiftUp_emod, ← hcount, aluShiftUp_natCast, digit_valueLoop _ _ _ hd, Int.toNat_natCast]

/-- Settles O38: every digit of the shift up, its count reduced modulo 3. -/
theorem shuResult : Obligations.ShuResult := by
  refine ⟨rfl, fun x op s => ?_⟩
  have hresult := RegResult.applyToX (fun a n => aluShiftUp a n.toInt) x op s
  refine ⟨_, rfl, fun d hd => ?_, hresult.carry, hresult.frame, hresult.ci⟩
  rw [hresult.value, digit_aluShiftUp _ _ hd]

end Sys2Proof.Machine
end

section
/-! PROOF. Moves, loads and stores (44_move_load_store.md): what MOV, LDA and LDO leave in x, what
STA and STO leave in memory and report, the tile policy, and the diagnostic for a missing z. -/

namespace Sys2Proof.Machine

/-! ### Moves and loads by op2 -/

/-- Settles O39: the two-operand shape with the ALU's copy. -/
theorem movResult : Obligations.MovResult := by
  refine ⟨rfl, fun x op s => ?_⟩
  have hresult := RegResult.applyToX (fun _ b => aluCopy b) x op s
  exact ⟨_, rfl, hresult.value, hresult.carry, hresult.frame, hresult.ci⟩

/-- Settles O40: the two-operand shape with the cell read at op2. -/
theorem ldaResult : Obligations.LdaResult := by
  refine ⟨rfl, fun x op s => ?_⟩
  have hresult := RegResult.applyToX (fun _ a => s.memRead a) x op s
  exact ⟨_, rfl, hresult.value, hresult.carry, hresult.frame, hresult.ci⟩

/-! ### The tile policy -/

/-- Settles O45, by the two ends of the region. -/
theorem tileEventExactlyInsideRegion : Obligations.TileEventExactlyInsideRegion := by
  intro base size fields a v
  refine ⟨fun hinside => if_pos ?_, fun houtside => if_neg ?_⟩
  · omega
  · omega

/-! ### Stores -/

/-- From s to t the cell at a took v, the watchers of a and then the tile policy reported it, and
nothing else that a `StoreFrame` speaks of changed. -/
structure StoreResult (a v : Tryte) (s t : State) : Prop where
  cell : t.memRead a = v
  frame : StoreFrame a s t
  trace : t.trace = s.trace ++ notifications s.watchers a v
    ++ tileEvents Config.tileBase Config.tileSize Config.tileFields a v

theorem StoreResult.store (s : State) (a v : Tryte) (hwf : s.mem.wf) :
    StoreResult a v s (s.store a v) :=
  ⟨State.memRead_store_same s a v hwf, store_frame s a v hwf, State.store_trace s a v⟩

/-- Settles O41: one store at op2, which does not touch CI. -/
theorem staResult : Obligations.StaResult := by
  refine ⟨rfl, fun x op s hwf => ?_⟩
  have hresult := StoreResult.store s (op2 op s) (s.readReg x) hwf
  exact ⟨_, exec_sta x op s, hresult.cell, hresult.frame, rfl, hresult.trace⟩

/-! ### The effective address of LDO and STO -/

/-- The effective address is a fresh add, whatever CI was (40_trit_tryte_alu.md R120). -/
theorem effectiveAddress_eq (base offset : Tryte) (s : State) :
    effectiveAddress base offset s = .ofInt (base.toInt + offset.toInt) := by
  rw [effectiveAddress, aluAdd_fresh]

theorem exec_ldo_wi (x y : Reg) (z : Tryte) (s : State) :
    exec (.ldo x (.wi y z)) s = .next ((s.addressed (s.readReg y) z).writeReg x
      (s.memRead (.ofInt ((s.readReg y).toInt + z.toInt)))) := by
  rw [← effectiveAddress_eq _ _ s]
  rfl

theorem exec_sto_wi (x y : Reg) (z : Tryte) (s : State) :
    exec (.sto x (.wi y z)) s = .next ((s.addressed (s.readReg y) z).store
      (.ofInt ((s.readReg y).toInt + z.toInt)) (s.readReg x)) := by
  rw [← effectiveAddress_eq _ _ s]
  rfl

section
variable {x : Reg} {a b o v : Tryte} {s t : State}

/-- The addition of the address changes CI alone, of which no register frame speaks. -/
theorem RegFrame.of_addressed (h : RegFrame x (s.addressed b o) t) : RegFrame x s t :=
  ⟨h.regs, h.mem, h.pc, h.trace, h.host⟩

/-- The addition of the address changes CI alone, of which no store frame speaks. -/
theorem StoreFrame.of_addressed (h : StoreFrame a (s.addressed b o) t) : StoreFrame a s t :=
  ⟨h.regs, h.mem, h.pc, h.carry, h.host⟩

theorem StoreResult.of_addressed (h : StoreResult a v (s.addressed b o) t) :
    StoreResult a v s t :=
  ⟨h.cell, h.frame.of_addressed, h.trace⟩

end

/-! ### The missing operand -/

/-- The three-operand instructions without z report the diagnostic and do nothing else
(44_move_load_store.md R216, 45_control_transfer.md R239). -/
theorem exec_of_no_z {m : Mnemonic} (hm : m ∈ [.ldo, .sto, .jeq, .jne, .jgt, .jlt, .jge, .jle])
    (x : Reg) {op : Operand} (hop : op.mode ≠ .wi) (s : State) :
    exec (m.instr x op) s = .next s.reportMissingOperand := by
  simp only [List.mem_cons, List.not_mem_nil, or_false] at hm
  cases op with
  | rr y | si n => rcases hm with rfl | rfl | rfl | rfl | rfl | rfl | rfl | rfl <;> rfl
  | wi y z => exact absurd rfl hop

/-- Settles O47: the instruction is rebuilt from its mnemonic and its operand. -/
theorem missingOperandReportsOnly : Obligations.MissingOperandReportsOnly := by
  intro i s hm hop
  rw [← instr_of_parts i]
  exact exec_of_no_z hm i.x hop s

/-- Settles O42, by the operand's mode. -/
theorem ldoResult : Obligations.LdoResult := by
  refine ⟨rfl, fun x op s => ?_⟩
  cases op with
  | rr y | si n => exact exec_of_no_z (m := .ldo) (by decide) x Mode.noConfusion s
  | wi y z =>
    exact ⟨_, exec_ldo_wi x y z s, State.readReg_writeReg_same _ _ _, rfl,
      (RegFrame.writeReg x _ _).of_addressed⟩

/-- Settles O43, by the operand's mode. -/
theorem stoResult : Obligations.StoResult := by
  refine ⟨rfl, fun x op s hwf => ?_⟩
  cases op with
  | rr y | si n => exact exec_of_no_z (m := .sto) (by decide) x Mode.noConfusion s
  | wi y z =>
    have hresult := (StoreResult.store (s.addressed (s.readReg y) z)
      (.ofInt ((s.readReg y).toInt + z.toInt)) (s.readReg x) hwf).of_addressed
    exact ⟨(effectiveAddress_eq _ _ s).symm, _, exec_sto_wi x y z s, hresult.cell, hresult.frame,
      hresult.trace⟩

end Sys2Proof.Machine
end

section
/-! PROOF. Control transfer (45_control_transfer.md): where the branches, JMP and JAL leave the pc,
the return of R240 and the carry test of R241. -/

namespace Sys2Proof.Machine

/-! ### Branches -/

theorem branchIf_wi_pc (holds : Int → Int → Bool) (x y : Reg) (z : Tryte) (s : State) :
    (branchIf holds x (.wi y z) s).pc =
      if holds (s.readReg x).toInt (s.readReg y).toInt then z else s.pc :=
  apply_ite State.pc _ _ _

/-- An instruction that branches under a condition, in WI mode: the pc is the target or the old one,
as the condition says, and nothing else changed (45_control_transfer.md R230 to R235). -/
theorem exec_branch_wi {i : Instr} {c : Int → Int → Prop} [∀ a b, Decidable (c a b)] {x y : Reg}
    {z : Tryte} {s : State}
    (hexec : exec i s = .next (branchIf (fun a b => decide (c a b)) x (.wi y z) s)) :
    ∃ t, exec i s = .next t ∧
      (c (s.readReg x).toInt (s.readReg y).toInt → t.pc = z) ∧
      (¬c (s.readReg x).toInt (s.readReg y).toInt → t.pc = s.pc) ∧ PcFrame s t := by
  refine ⟨_, hexec, fun htaken => ?_, fun hnot => ?_, .branchIf_wi _ x y z s⟩
  · rw [branchIf_wi_pc, if_pos (decide_eq_true htaken)]
  · rw [branchIf_wi_pc, decide_eq_false hnot, if_neg Bool.false_ne_true]

/-- Settles O46: each branch is `branchIf` of its own condition, read by the operand's mode. -/
theorem branchResults : Obligations.BranchResults := by
  refine ⟨rfl, rfl, rfl, rfl, rfl, rfl, ?_⟩
  intro x op s branch
  have of_branchIf {i : Instr} {c : Int → Int → Prop} [∀ a b, Decidable (c a b)]
      (hexec : exec i s = .next (branchIf (fun a b => decide (c a b)) x op s)) : branch i c := by
    cases op with
    | rr y | si n => exact hexec
    | wi y z => exact exec_branch_wi hexec
  -- Opaque, so that unification reads each instruction and its condition off the goal.
  clear_value branch
  exact ⟨of_branchIf rfl, of_branchIf rfl, of_branchIf rfl, of_branchIf rfl, of_branchIf rfl,
    of_branchIf rfl⟩

/-! ### Jumps -/

/-- Settles O48: the pc alone is written. -/
theorem jmpResult : Obligations.JmpResult :=
  ⟨rfl, fun _ _ s => ⟨_, rfl, rfl, .setPc s _⟩⟩

/-- Settles O49: ra is written before the pc, and each write leaves the rest. -/
theorem jalResult : Obligations.JalResult := by
  refine ⟨rfl, fun x op s => ?_⟩
  have hra := RegFrame.writeReg .ra s.pc s
  have hpc := PcFrame.setPc (s.writeReg .ra s.pc) (op2 op s)
  exact ⟨_, rfl, rfl, State.readReg_writeReg_same s .ra s.pc,
    fun r hr => (hpc.regs r).trans (hra.regs r hr), fun a => (hpc.mem a).trans (hra.mem a),
    hpc.carry, hpc.ci, hpc.trace.trans hra.trace, hra.host⟩

/-! ### The return -/

/-- The pc of a fetched instruction is past it by its length (41_cpu_step.md R151, R153). -/
theorem fetch_state_pc_of_fetched {s : State} {i : Instr}
    (h : decodeWord s.fetch.word s.fetch.z = .ok i) :
    s.fetch.state.pc = .ofInt (s.pc.toInt + i.length) := by
  rw [fetch_state_pc, length_of_fetched h, Nat.cast_ite]
  rfl

/-- Settles O50: ra holds the pc that passed the JAL, and `JMP ra` reads its target there. -/
theorem jumpAndLinkThenReturn : Obligations.JumpAndLinkThenReturn := by
  intro s x x' op hsteppable hdecode
  obtain ⟨-, hjal⟩ := jalResult
  obtain ⟨-, hjmp⟩ := jmpResult
  obtain ⟨t, hlink, htarget, hra, -⟩ := hjal x op s.fetch.state
  obtain ⟨u, hreturn, hpc, -⟩ := hjmp x' (.rr .ra) t
  have hstep : step s = .next t :=
    (stepRunsDecodedInstruction s (.jal x op) hsteppable hdecode).trans hlink
  refine ⟨t, u, hstep, ?_, hreturn, ?_⟩
  · rw [htarget, op2_of_regs_eq (fetch_state_regs s)]
  · calc
      u.pc = t.readReg .ra := hpc
      _ = s.fetch.state.pc := hra
      _ = .ofInt (s.pc.toInt + (Instr.jal x op).length) := fetch_state_pc_of_fetched hdecode

/-! ### The carry test -/

/-- Settles O51: the chained sum is the old carry alone, which fits a tryte and leaves none. -/
theorem carryCopiesIntoRegister : Obligations.CarryCopiesIntoRegister := by
  intro x s
  obtain ⟨-, hmov⟩ := movResult
  obtain ⟨t, hclear, hvalue, hcarry, -, -⟩ := hmov x (.si 0) s
  obtain ⟨u, hadc, hresult⟩ := exec_adc x (.si 0) t
  have hzero : (Tryte.ofInt 0).toInt = 0 := Tryte.toInt_ofInt_of_range (by decide)
  have hsum : (u.readReg x).toInt + 19683 * u.carry.toInt = s.carry.toInt := calc
    _ = (t.readReg x).toInt + (Tryte.ofInt 0).toInt + t.carry.toInt := hresult.sum_exact
    _ = (Tryte.ofInt 0).toInt + (Tryte.ofInt 0).toInt + s.carry.toInt := by rw [hvalue, hcarry]; rfl
    _ = s.carry.toInt := by rw [hzero, zero_add, zero_add]
  have hfits := (u.readReg x).toInt_bounds
  have hold := s.carry.toInt_bounds
  have hnone : u.carry.toInt = 0 := by omega
  exact ⟨t, u, hclear, hadc, by rw [← hsum, hnone, mul_zero, add_zero], Trit.toInt_inj hnone⟩

end Sys2Proof.Machine
end

section
/-! PROOF. The assembler (46_assembler.md): the operand that the chooser's form of a literal
resolves to, and PSH and POP as the instructions they expand to. -/

namespace Sys2Proof.Machine

/-! ### The chooser -/

/-- Only the operand can make an instruction ill formed. -/
@[simp] theorem wf_instr (m : Mnemonic) (x : Reg) (op : Operand) : (m.instr x op).wf = op.wf := by
  rw [Instr.wf, operand_instr]

/-- The operand that a literal stands for after the chooser (R260): the short form where the y field
holds it, else the long form with the literal's tryte as z. -/
def literalOperand (n : Int) : Operand :=
  if inField 4 n then .si n else .wi unusedReg (tryteFromDecimal n)

theorem literalOperand_of_short {n : Int} (h : inField 4 n = true) : literalOperand n = .si n :=
  if_pos h

theorem literalOperand_of_long {n : Int} (h : ¬ inField 4 n = true) :
    literalOperand n = .wi unusedReg (tryteFromDecimal n) := if_neg h

/-- Pass 2 needs no symbol for a literal, in whichever form. -/
theorem resolve_choose_literal (table : List (List Char × Int)) (m : Mnemonic) (x : Reg) (n : Int) :
    resolve table { mnemonic := m, x := x, op := choose (.literal n) } =
      .ok (m.instr x (literalOperand n)) := by
  by_cases h : inField 4 n = true
  · rw [choose, if_pos h, literalOperand_of_short h]
    rfl
  · rw [choose, if_neg h, literalOperand_of_long h]
    rfl

theorem literalOperand_wf (n : Int) : (literalOperand n).wf = true := by
  by_cases h : inField 4 n = true
  · rw [literalOperand_of_short h]
    exact h
  · rw [literalOperand_of_long h]
    rfl

/-- Both forms carry the literal's value (30_encoding.md R88, 41_cpu_step.md R156). -/
theorem op2_literalOperand {n : Int} (hn : -9841 ≤ n ∧ n ≤ 9841) (s : State) :
    (op2 (literalOperand n) s).toInt = n := by
  by_cases h : inField 4 n = true
  · rw [literalOperand_of_short h]
    exact Tryte.toInt_ofInt_of_range hn
  · rw [literalOperand_of_long h]
    exact toInt_tryteFromDecimal hn

/-- Settles O59, by the operand that the chosen form resolves to. -/
theorem chooserKeepsLiteralValue : Obligations.ChooserKeepsLiteralValue :=
  fun m x n table s hlow hhigh =>
    ⟨m.instr x (literalOperand n), resolve_choose_literal table m x n,
      by rw [wf_instr, literalOperand_wf],
      by rw [operand_instr, op2_literalOperand ⟨hlow, hhigh⟩]⟩

/-! ### PSH and POP -/

/-- ADD of a short immediate adds its value, wrapping (42_arithmetic.md R170). -/
theorem exec_add_si (x : Reg) (n : Int) (s : State) :
    ∃ t, exec (.add x (.si n)) s = .next t ∧
      t.readReg x = Tryte.ofInt ((s.readReg x).toInt + n) ∧ RegFrame x s t := by
  obtain ⟨-, hadd⟩ := addResult
  obtain ⟨t, hexec, hvalue, -, hframe, -⟩ := hadd x (.si n) s
  refine ⟨t, hexec, ?_, hframe⟩
  calc t.readReg x
      = Tryte.ofInt ((s.readReg x).toInt + (Tryte.ofInt n).toInt) := hvalue
    _ = Tryte.ofInt ((s.readReg x).toInt + n) := by
        rw [add_comm, ofInt_toInt_ofInt_add, add_comm]

/-- Adding n and then -n puts the register back, a wrap between them included. -/
theorem exec_add_si_neg_restores (x : Reg) (n : Int) (s : State) :
    ∃ t u, exec (.add x (.si n)) s = .next t ∧ exec (.add x (.si (-n))) t = .next u ∧
      regsSame s u ∧ memSame s u := by
  obtain ⟨t, haddn, htvalue, htframe⟩ := exec_add_si x n s
  obtain ⟨u, hsubn, huvalue, huframe⟩ := exec_add_si x (-n) t
  refine ⟨t, u, haddn, hsubn, fun q => ?_, fun a => (huframe.mem a).trans (htframe.mem a)⟩
  by_cases hq : q = x
  · subst hq
    rw [huvalue, htvalue, ofInt_toInt_ofInt_add, add_neg_cancel_right, Tryte.ofInt_toInt]
  · exact (huframe.regs q hq).trans (htframe.regs q hq)

/-- Settles O60: the stack pointer is back before the load, which then reads the cell that the store
wrote. That r is not sp is not needed: the store comes before the increment. -/
theorem pushThenPopRestores : Obligations.PushThenPopRestores := by
  intro r s hwf _
  obtain ⟨-, hsta⟩ := staResult
  obtain ⟨-, hlda⟩ := ldaResult
  obtain ⟨t, hstore, hcell, hstoreFrame, -⟩ := hsta r (.rr .sp) s hwf
  obtain ⟨u, v, hincrement, hdecrement, hregs, hmem⟩ := exec_add_si_neg_restores .sp 1 t
  obtain ⟨w, hload, hloaded, -, hloadFrame, -⟩ := hlda r (.rr .sp) v
  have hback : regsSame s v := fun q => (hregs q).trans (hstoreFrame.regs q)
  refine ⟨t, u, v, w, hstore, hincrement, hdecrement, hload, fun _ => rfl, fun _ => rfl,
    fun q => ?_⟩
  by_cases hq : q = r
  · subst hq
    calc w.readReg q
        = v.memRead (v.readReg .sp) := hloaded
      _ = t.memRead (s.readReg .sp) := by rw [hback .sp, hmem]
      _ = s.readReg q := hcell
  · exact (hloadFrame.regs q hq).trans (hback q)

end Sys2Proof.Machine
end

section
/-! PROOF. The fatal halt (60_exceptions.md): whatever raises it, a step's halt is raised on the
fetched state, with the address and the word of the fetch. -/

namespace Sys2Proof.Machine

theorem ne_halted_of_steppable {s : State} (h : s.steppable) : s.run ≠ .halted := by
  rcases h with h | h | h <;> simp [h]

/-- A step of a core that is not Halted keeps its run state, or raises one halt on the fetched state:
dispatch does for an unassigned opcode, DIV and MOD do for a zero divisor (60_exceptions.md R292,
R295). -/
theorem step_keeps_run_or_raises_halt {s t : State} (hhalted : s.run ≠ .halted)
    (hstep : step s = .next t) :
    t.run = s.run ∨ ∃ cause, t = s.fetch.state.raiseHalt cause s.pc (s.memRead s.pc) := by
  rcases step_cases hstep with ⟨hrests, -⟩ | ⟨-, -, ⟨i, hdecode, hexec⟩ | ⟨-, hunassigned⟩⟩
  · exact absurd hrests hhalted
  · rcases exec_cases hexec with hdivision | hgo
    · exact .inr ⟨.divideByZero, hdivision.trans (haltIn_of_fetched _ hdecode)⟩
    · obtain ⟨-, hrun, -⟩ := hgo.host
      exact .inl (hrun.trans (fetch_state_run s))
  · rw [fetch_address, fetch_word] at hunassigned
    exact .inr ⟨.unknownOpcode, hunassigned⟩

/-- Settles O24: a step that ends Halted did not keep its run state, so it raised the halt. -/
theorem haltIsPrecise : Obligations.HaltIsPrecise := by
  intro s t hsteppable hstep
  have hhalted := ne_halted_of_steppable hsteppable
  rcases step_keeps_run_or_raises_halt hhalted hstep with hrun | ⟨cause, rfl⟩
  · exact ⟨.inl hrun, fun h => absurd (hrun.symm.trans h) hhalted⟩
  · obtain ⟨hregs, hmem, hcarry, htrace⟩ :=
      raiseHalt_fetch_state_frame s cause s.pc (s.memRead s.pc)
    exact ⟨.inr rfl, fun _ => ⟨hregs, hmem, hcarry, cause, htrace⟩⟩

end Sys2Proof.Machine
end

section
/-! PROOF. Reset and lifecycle (70_reset_and_hazards.md): the rows of the run-state table, and the
first fetch after load and reset. -/

namespace Sys2Proof.Machine

/-! ### The host's requests in the run states -/

/-- `start` leads Loaded and Stopped to Running and changes nothing else (70_reset_and_hazards.md
R323). -/
theorem hostAct_start {s : State} (h : s.run = .loaded ∨ s.run = .stopped) :
    hostAct .start s = .next { s with run := .running } := by
  rcases h with h | h <;> simp only [hostAct, h]

/-- `stop` leads Running to Stopped and changes nothing else (70_reset_and_hazards.md R323). -/
theorem hostAct_stop {s : State} (h : s.run = .running) :
    hostAct .stop s = .next { s with run := .stopped } := by simp only [hostAct, h]

theorem hostReset_run_of_halted {s : State} (h : s.run = .halted) : s.hostReset.run = .loaded := by
  rw [State.hostReset_run, runAfterReset_eq, if_pos h]

theorem hostReset_run_of_ne_halted {s : State} (h : s.run ≠ .halted) : s.hostReset.run = s.run := by
  rw [State.hostReset_run, runAfterReset_eq, if_neg h]

/-- A step of a steppable core answers a state of the same run state or a Halted one. -/
theorem step_next_of_steppable {s : State} (h : s.steppable) :
    ∃ t, step s = .next t ∧ (t.run = s.run ∨ t.run = .halted) := by
  obtain ⟨t, hcycle⟩ := cycle_next s
  have hstep : step s = .next t := (step_eq_cycle h).trans hcycle
  obtain ⟨hrun, -⟩ := haltIsPrecise s t h hstep
  exact ⟨t, hstep, hrun⟩

/-- Settles O55, row by row of R324. -/
theorem runStateTable : Obligations.RunStateTable := by
  intro s
  refine ⟨fun image ws => ⟨s.load image ws, rfl, rfl⟩, fun hunloaded => ?unloaded, hostAct_start,
    hostAct_stop, fun hsteppable => ?steppable, fun hhalted => ?halted⟩
  case unloaded =>
    have hreset := hostReset_run_of_ne_halted (s := s) (by simp [hunloaded])
    exact ⟨⟨s.hostReset, rfl, hreset.trans hunloaded⟩, step_of_unloaded hunloaded⟩
  case steppable =>
    have hreset := hostReset_run_of_ne_halted (ne_halted_of_steppable hsteppable)
    exact ⟨⟨s.hostReset, rfl, hreset⟩, step_next_of_steppable hsteppable⟩
  case halted => exact ⟨step_of_halted hhalted, s.hostReset, rfl, hostReset_run_of_halted hhalted⟩

/-! ### The entry point -/

/-- Settles O57: `load` places the image's word at the entry (`loadEffects`); `reset()` zeroes the
registers and keeps memory and the run state Loaded (`resetEffects`). -/
theorem firstStepFetchesAddressZero : Obligations.FirstStepFetchesAddressZero := by
  intro s image ws w hnodup hword
  obtain ⟨u, hload, hcells, -, -, hloaded, -⟩ := loadEffects s image ws hnodup
  obtain ⟨t, hreset, hregs, hpc, hmem, -, -, hrun⟩ := resetEffects u
  have hhistory : systemRun [.host (.load image ws), .host .reset] s = .next t :=
    systemRun_cons_eq_next.2 ⟨u, hload, systemRun_cons_eq_next.2 ⟨t, hreset, rfl⟩⟩
  have hfetched : t.fetch.word = w := calc
    t.fetch.word = t.memRead Tryte.zero := by rw [fetch_word, hpc]
    _ = u.memRead Tryte.zero := hmem Tryte.zero
    _ = w := hcells (Tryte.zero, w) hword
  have hstays : t.run = .loaded := by simp [hrun, hloaded]
  exact ⟨t, hhistory, .inl hstays, (fetch_address t).trans hpc, hfetched, hregs⟩

end Sys2Proof.Machine
end
